-- ==== Sys2Proof/Word.lean ====
section
/-! DEFINITION. The word types of the machine: bytes, 12-bit addresses, 16-bit opcodes, 4-bit register indices. -/

namespace Sys2Proof

/-- A byte of memory, a general register or a timer: 8 bits (R21, R27, R50). -/
abbrev Byte := BitVec 8

/-- A program-counter value or an address field: 12 bits (R23, R72). -/
abbrev Addr := BitVec 12

/-- An opcode: one 16-bit instruction word (R15, R71). -/
abbrev Opcode := BitVec 16

/-- The address register I as it is stored: 16 bits (R24, D2). -/
abbrev IndexWord := BitVec 16

/-- A 4-bit field of an opcode; as `x` or `y` it names one of V0 to VF (R72, R73). -/
abbrev Nibble := BitVec 4

/-- The index of VF, the machine's only flag register (R22). -/
def vf : Nibble := 0xF

end Sys2Proof
end

