-- ==== Sys2Proof/Machine/Flags.lean ====
section
/-! DEFINITION. The values that instructions write to VF, the machine's only flag (R22). -/

namespace Sys2Proof.Machine

/-- A condition as a flag value: 1 or 0. -/
def flagOf (condition : Bool) : Byte :=
  if condition then 0x01 else 0x00

/-- `sum := V[x] + V[y]`, from 0 to 510 (R137). -/
def sumOf (a b : Byte) : Nat :=
  a.toNat + b.toNat

/-- The carry of 8xy4: 1 if the sum exceeds 255 (R137). -/
def carryFlag (a b : Byte) : Byte :=
  flagOf (decide (sumOf a b > 255))

/-- The no-borrow flag of 8xy5 and 8xy7: 1 if the minuend is strictly greater than the subtrahend (R138, R140). -/
def noBorrowFlag (minuend subtrahend : Byte) : Byte :=
  flagOf (decide (minuend.toNat > subtrahend.toNat))

/-- The flag of 8xy6: the low bit before the shift, 0 or 1 (R139). -/
def lowBitFlag (a : Byte) : Byte :=
  a &&& 0x01

/-- The flag of 8xyE: the high bit before the shift in its place, 0x00 or 0x80 (R141). -/
def highBitFlag (a : Byte) : Byte :=
  a &&& 0x80

/-- The collision flag of Dxyn (R180). -/
def collisionFlag (collided : Bool) : Byte :=
  flagOf collided

end Sys2Proof.Machine
end

