-- ==== Sys2Proof/Syntax.lean ====
section
/-! DEFINITION. The instructions: one constructor per row of spec/opcode_table.json, in the table's order, its
arguments the opcode's variable fields (R72, R74). A field that an instruction ignores (the low nibble of 5xyN and
9xyN, y of 8xy6 and 8xyE) is kept as an argument, so that no bit of an opcode is lost (log 15). -/

namespace Sys2Proof

/-- An instruction (R75). `x` and `y` name registers, `kk` is the 8-bit immediate, `n` the low nibble, `nnn` the
12-bit address. -/
inductive Instr where
  /-- 00E0 `CLS` (R101). -/
  | cls
  /-- 00EE `RET` (R102). -/
  | ret
  /-- 0nnn `SYS nnn`, nnn not 0x0E0 or 0x0EE (R103). -/
  | sys (nnn : Addr)
  /-- 1nnn `JP nnn` (R104). -/
  | jp (nnn : Addr)
  /-- 2nnn `CALL nnn` (R105). -/
  | call (nnn : Addr)
  /-- 3xkk `SE Vx, kk` (R106). -/
  | seImm (x : Nibble) (kk : Byte)
  /-- 4xkk `SNE Vx, kk` (R107). -/
  | sneImm (x : Nibble) (kk : Byte)
  /-- 5xyN `SE Vx, Vy`, any N (R108). -/
  | seReg (x y n : Nibble)
  /-- 6xkk `LD Vx, kk` (R130). -/
  | ldImm (x : Nibble) (kk : Byte)
  /-- 7xkk `ADD Vx, kk` (R131). -/
  | addImm (x : Nibble) (kk : Byte)
  /-- 8xy0 `LD Vx, Vy` (R133). -/
  | ldReg (x y : Nibble)
  /-- 8xy1 `OR Vx, Vy` (R134). -/
  | orReg (x y : Nibble)
  /-- 8xy2 `AND Vx, Vy` (R135). -/
  | andReg (x y : Nibble)
  /-- 8xy3 `XOR Vx, Vy` (R136). -/
  | xorReg (x y : Nibble)
  /-- 8xy4 `ADD Vx, Vy` (R137). -/
  | addReg (x y : Nibble)
  /-- 8xy5 `SUB Vx, Vy` (R138). -/
  | subReg (x y : Nibble)
  /-- 8xy6 `SHR Vx`, any y (R139). -/
  | shr (x y : Nibble)
  /-- 8xy7 `SUBN Vx, Vy` (R140). -/
  | subn (x y : Nibble)
  /-- 8xyE `SHL Vx`, any y (R141). -/
  | shl (x y : Nibble)
  /-- 9xyN `SNE Vx, Vy`, any N (R160). -/
  | sneReg (x y n : Nibble)
  /-- Annn `LD I, nnn` (R161). -/
  | ldI (nnn : Addr)
  /-- Bnnn `JP V0, nnn` (R162). -/
  | jpV0 (nnn : Addr)
  /-- Cxkk `RND Vx, kk` (R163). -/
  | rnd (x : Nibble) (kk : Byte)
  /-- Dxyn `DRW Vx, Vy, n` (R180). -/
  | drw (x y n : Nibble)
  /-- Ex9E `SKP Vx` (R182). -/
  | skp (x : Nibble)
  /-- ExA1 `SKNP Vx` (R183). -/
  | sknp (x : Nibble)
  /-- Fx07 `LD Vx, DT` (R201). -/
  | ldVxDt (x : Nibble)
  /-- Fx0A `LD Vx, K` (R202). -/
  | ldVxKey (x : Nibble)
  /-- Fx15 `LD DT, Vx` (R203). -/
  | ldDtVx (x : Nibble)
  /-- Fx18 `LD ST, Vx` (R204). -/
  | ldStVx (x : Nibble)
  /-- Fx1E `ADD I, Vx` (R205). -/
  | addIVx (x : Nibble)
  /-- Fx29 `LD F, Vx` (R206). -/
  | ldFVx (x : Nibble)
  /-- Fx33 `LD B, Vx` (R207). -/
  | ldBVx (x : Nibble)
  /-- Fx55 `LD [I], Vx` (R208). -/
  | storeRegs (x : Nibble)
  /-- Fx65 `LD Vx, [I]` (R209). -/
  | loadRegs (x : Nibble)
deriving DecidableEq, Repr

end Sys2Proof
end

