-- ==== Sys2Proof/WellFormed.lean ====
section
/-! DEFINITION. Which terms of Instr stand for an opcode. Every field already has its opcode's width, so the one check
left is that of SYS: 0x00E0 and 0x00EE are CLS and RET, not no-ops (R75, R103). -/

namespace Sys2Proof

/-- The address field of a `SYS`: any but the two that make 0x00E0 and 0x00EE (R103). -/
def sysFieldOk (nnn : Addr) : Bool :=
  nnn != 0x0E0 && nnn != 0x0EE

/-- The instruction is one that some opcode encodes (R75). -/
def Instr.wellFormed : Instr → Bool
  | .sys nnn => sysFieldOk nnn
  | .cls | .ret | .jp _ | .call _ | .seImm _ _ | .sneImm _ _ | .seReg _ _ _ | .ldImm _ _ | .addImm _ _
  | .ldReg _ _ | .orReg _ _ | .andReg _ _ | .xorReg _ _ | .addReg _ _ | .subReg _ _ | .shr _ _ | .subn _ _
  | .shl _ _ | .sneReg _ _ _ | .ldI _ | .jpV0 _ | .rnd _ _ | .drw _ _ _ | .skp _ | .sknp _ | .ldVxDt _
  | .ldVxKey _ | .ldDtVx _ | .ldStVx _ | .addIVx _ | .ldFVx _ | .ldBVx _ | .storeRegs _ | .loadRegs _ => true

end Sys2Proof
end

