-- ==== Sys2Proof/Decode.lean ====
section
/-! DEFINITION. The decoder: from an opcode (or any bytes) to an instruction or a named refusal (R72, R75, R76); and
after it the encoder, written from the same field positions (R72, R74), and the rows of the opcode table. -/

namespace Sys2Proof

/-- Why a decoding gives no instruction. -/
inductive DecodeError where
  /-- Fewer than the two bytes of an opcode (R71). Raised by `decode` only; a fetch always has two bytes. -/
  | truncated
  /-- The opcode is one of the 9808 illegal ones (R76); it carries "the raw 16-bit value". -/
  | unrecognizedInstruction (opcode : Opcode)
deriving DecidableEq, Repr

/-! ### The fields (R72) -/

/-- `f`, op[15:12]: the family. -/
def fieldF (op : Opcode) : Nibble := op.extractLsb' 12 4

/-- `x`, op[11:8]. -/
def fieldX (op : Opcode) : Nibble := op.extractLsb' 8 4

/-- `y`, op[7:4]. -/
def fieldY (op : Opcode) : Nibble := op.extractLsb' 4 4

/-- `n`, op[3:0]. -/
def fieldN (op : Opcode) : Nibble := op.extractLsb' 0 4

/-- `kk`, op[7:0]. -/
def fieldKK (op : Opcode) : Byte := op.extractLsb' 0 8

/-- `nnn`, op[11:0]. -/
def fieldNNN (op : Opcode) : Addr := op.extractLsb' 0 12

/-! ### The decode tree (R75) -/

/-- Family 0: two full opcodes, every other value a no-op. -/
def decodeFamily0 (op : Opcode) : Instr :=
  if op = 0x00E0 then .cls
  else if op = 0x00EE then .ret
  else .sys (fieldNNN op)

/-- Family 8, by the low nibble; seven values are illegal (R76, R132). -/
def decodeFamily8 (op : Opcode) : Except DecodeError Instr :=
  let x := fieldX op
  let y := fieldY op
  let n := fieldN op
  if n = 0x0 then .ok (.ldReg x y)
  else if n = 0x1 then .ok (.orReg x y)
  else if n = 0x2 then .ok (.andReg x y)
  else if n = 0x3 then .ok (.xorReg x y)
  else if n = 0x4 then .ok (.addReg x y)
  else if n = 0x5 then .ok (.subReg x y)
  else if n = 0x6 then .ok (.shr x y)
  else if n = 0x7 then .ok (.subn x y)
  else if n = 0xE then .ok (.shl x y)
  else .error (.unrecognizedInstruction op)

/-- Family E, by the low byte (R76, R182, R183). -/
def decodeFamilyE (op : Opcode) : Except DecodeError Instr :=
  let x := fieldX op
  let kk := fieldKK op
  if kk = 0x9E then .ok (.skp x)
  else if kk = 0xA1 then .ok (.sknp x)
  else .error (.unrecognizedInstruction op)

/-- Family F, by the low byte (R76, R200). -/
def decodeFamilyF (op : Opcode) : Except DecodeError Instr :=
  let x := fieldX op
  let kk := fieldKK op
  if kk = 0x07 then .ok (.ldVxDt x)
  else if kk = 0x0A then .ok (.ldVxKey x)
  else if kk = 0x15 then .ok (.ldDtVx x)
  else if kk = 0x18 then .ok (.ldStVx x)
  else if kk = 0x1E then .ok (.addIVx x)
  else if kk = 0x29 then .ok (.ldFVx x)
  else if kk = 0x33 then .ok (.ldBVx x)
  else if kk = 0x55 then .ok (.storeRegs x)
  else if kk = 0x65 then .ok (.loadRegs x)
  else .error (.unrecognizedInstruction op)

/-- `decode(op)` of R75: total on all 65536 opcodes. -/
def decodeOpcode (op : Opcode) : Except DecodeError Instr :=
  let f := fieldF op
  let x := fieldX op
  let y := fieldY op
  let n := fieldN op
  let kk := fieldKK op
  let nnn := fieldNNN op
  if f = 0x0 then .ok (decodeFamily0 op)
  else if f = 0x1 then .ok (.jp nnn)
  else if f = 0x2 then .ok (.call nnn)
  else if f = 0x3 then .ok (.seImm x kk)
  else if f = 0x4 then .ok (.sneImm x kk)
  else if f = 0x5 then .ok (.seReg x y n)
  else if f = 0x6 then .ok (.ldImm x kk)
  else if f = 0x7 then .ok (.addImm x kk)
  else if f = 0x8 then decodeFamily8 op
  else if f = 0x9 then .ok (.sneReg x y n)
  else if f = 0xA then .ok (.ldI nnn)
  else if f = 0xB then .ok (.jpV0 nnn)
  else if f = 0xC then .ok (.rnd x kk)
  else if f = 0xD then .ok (.drw x y n)
  else if f = 0xE then decodeFamilyE op
  else decodeFamilyF op

/-- The opcode that two fetched bytes make: big-endian, the first byte the high half (R53, R55). -/
def opcodeOfBytes (first second : Byte) : Opcode :=
  first ++ second

/-- The decoder on bytes: the instruction and the bytes after it. Every instruction takes exactly two (R71). -/
def decode : List Byte → Except DecodeError (Instr × List Byte)
  | first :: second :: rest =>
    match decodeOpcode (opcodeOfBytes first second) with
    | .ok i => .ok (i, rest)
    | .error e => .error e
  | _ => .error .truncated

/-! ### The encoder (R72, R74) -/

/-- Format NNN: `f ++ nnn`. -/
def encodeNNN (f : Nibble) (nnn : Addr) : Opcode := f ++ nnn

/-- Formats XKK and XS: `f ++ x ++ kk`. -/
def encodeXKK (f x : Nibble) (kk : Byte) : Opcode := f ++ x ++ kk

/-- Formats XY, XYS and XYN: `f ++ x ++ y ++ n`. -/
def encodeXYN (f x y n : Nibble) : Opcode := f ++ x ++ y ++ n

/-- The opcode of an instruction; the inverse of `decodeOpcode` on well-formed instructions. -/
def encode : Instr → Opcode
  | .cls => 0x00E0
  | .ret => 0x00EE
  | .sys nnn => encodeNNN 0x0 nnn
  | .jp nnn => encodeNNN 0x1 nnn
  | .call nnn => encodeNNN 0x2 nnn
  | .seImm x kk => encodeXKK 0x3 x kk
  | .sneImm x kk => encodeXKK 0x4 x kk
  | .seReg x y n => encodeXYN 0x5 x y n
  | .ldImm x kk => encodeXKK 0x6 x kk
  | .addImm x kk => encodeXKK 0x7 x kk
  | .ldReg x y => encodeXYN 0x8 x y 0x0
  | .orReg x y => encodeXYN 0x8 x y 0x1
  | .andReg x y => encodeXYN 0x8 x y 0x2
  | .xorReg x y => encodeXYN 0x8 x y 0x3
  | .addReg x y => encodeXYN 0x8 x y 0x4
  | .subReg x y => encodeXYN 0x8 x y 0x5
  | .shr x y => encodeXYN 0x8 x y 0x6
  | .subn x y => encodeXYN 0x8 x y 0x7
  | .shl x y => encodeXYN 0x8 x y 0xE
  | .sneReg x y n => encodeXYN 0x9 x y n
  | .ldI nnn => encodeNNN 0xA nnn
  | .jpV0 nnn => encodeNNN 0xB nnn
  | .rnd x kk => encodeXKK 0xC x kk
  | .drw x y n => encodeXYN 0xD x y n
  | .skp x => encodeXKK 0xE x 0x9E
  | .sknp x => encodeXKK 0xE x 0xA1
  | .ldVxDt x => encodeXKK 0xF x 0x07
  | .ldVxKey x => encodeXKK 0xF x 0x0A
  | .ldDtVx x => encodeXKK 0xF x 0x15
  | .ldStVx x => encodeXKK 0xF x 0x18
  | .addIVx x => encodeXKK 0xF x 0x1E
  | .ldFVx x => encodeXKK 0xF x 0x29
  | .ldBVx x => encodeXKK 0xF x 0x33
  | .storeRegs x => encodeXKK 0xF x 0x55
  | .loadRegs x => encodeXKK 0xF x 0x65

/-- The two bytes of an opcode as memory holds them, high byte at the lower address (R53). -/
def opcodeBytes (op : Opcode) : List Byte :=
  [op.extractLsb' 8 8, op.extractLsb' 0 8]

/-- The bytes of an instruction in memory order. -/
def encodeBytes (i : Instr) : List Byte :=
  opcodeBytes (encode i)

/-! ### The opcode table -/

/-- A row of spec/opcode_table.json: the bits that are fixed, and their values. -/
structure TableRow where
  mask : Opcode
  pattern : Opcode
deriving DecidableEq, Repr

/-- The row of spec/opcode_table.json that an instruction stands for: its `mask` and `match`. -/
def Instr.tableRow : Instr → TableRow
  | .cls => ⟨0xFFFF, 0x00E0⟩
  | .ret => ⟨0xFFFF, 0x00EE⟩
  | .sys _ => ⟨0xF000, 0x0000⟩
  | .jp _ => ⟨0xF000, 0x1000⟩
  | .call _ => ⟨0xF000, 0x2000⟩
  | .seImm _ _ => ⟨0xF000, 0x3000⟩
  | .sneImm _ _ => ⟨0xF000, 0x4000⟩
  | .seReg _ _ _ => ⟨0xF000, 0x5000⟩
  | .ldImm _ _ => ⟨0xF000, 0x6000⟩
  | .addImm _ _ => ⟨0xF000, 0x7000⟩
  | .ldReg _ _ => ⟨0xF00F, 0x8000⟩
  | .orReg _ _ => ⟨0xF00F, 0x8001⟩
  | .andReg _ _ => ⟨0xF00F, 0x8002⟩
  | .xorReg _ _ => ⟨0xF00F, 0x8003⟩
  | .addReg _ _ => ⟨0xF00F, 0x8004⟩
  | .subReg _ _ => ⟨0xF00F, 0x8005⟩
  | .shr _ _ => ⟨0xF00F, 0x8006⟩
  | .subn _ _ => ⟨0xF00F, 0x8007⟩
  | .shl _ _ => ⟨0xF00F, 0x800E⟩
  | .sneReg _ _ _ => ⟨0xF000, 0x9000⟩
  | .ldI _ => ⟨0xF000, 0xA000⟩
  | .jpV0 _ => ⟨0xF000, 0xB000⟩
  | .rnd _ _ => ⟨0xF000, 0xC000⟩
  | .drw _ _ _ => ⟨0xF000, 0xD000⟩
  | .skp _ => ⟨0xF0FF, 0xE09E⟩
  | .sknp _ => ⟨0xF0FF, 0xE0A1⟩
  | .ldVxDt _ => ⟨0xF0FF, 0xF007⟩
  | .ldVxKey _ => ⟨0xF0FF, 0xF00A⟩
  | .ldDtVx _ => ⟨0xF0FF, 0xF015⟩
  | .ldStVx _ => ⟨0xF0FF, 0xF018⟩
  | .addIVx _ => ⟨0xF0FF, 0xF01E⟩
  | .ldFVx _ => ⟨0xF0FF, 0xF029⟩
  | .ldBVx _ => ⟨0xF0FF, 0xF033⟩
  | .storeRegs _ => ⟨0xF0FF, 0xF055⟩
  | .loadRegs _ => ⟨0xF0FF, 0xF065⟩

/-- The bytes, in memory order, of an instruction whose first `nbits` bits are `w`, bit 0 the least significant bit of
its one 16-bit word; bits above `nbits` are 0. -/
def tableWordBytes (nbits w : Nat) : List Byte :=
  opcodeBytes (BitVec.ofNat 16 (w % 2 ^ nbits))

/-- The instruction this decoder reads from an instruction whose bits are `w`, numbered as the opcode table numbers
them. -/
def decodeTableWord (nbits w : Nat) : Option Instr :=
  match decode (tableWordBytes nbits w) with
  | .ok (i, _) => some i
  | .error _ => none

end Sys2Proof
end

