-- ==== Sys2Proof/Config.lean ====
section
/-! DEFINITION. The fixed numbers of the block (R9), its parameters IPT, STACK_CAP and FONT with their defaults
(R9, R31, R283), and the one free value: the random source (R259). -/

namespace Sys2Proof.Config

/-- `MEM_SIZE`: bytes of memory (R9, R50). -/
abbrev memSize : Nat := 4096

/-- `PROGRAM_BASE`: where programs are loaded and where execution starts (R9, R34, R284). -/
abbrev programBase : Nat := 0x200

/-- `FONT_BASE`: where the glyphs are loaded (R9, R282). -/
abbrev fontBase : Nat := 0x000

/-- The longest program image: the bytes from 0x200 to 0xFFF (R284). -/
abbrev maxProgram : Nat := 3584

/-- `DISPLAY_W` (R9, R252). -/
abbrev displayWidth : Nat := 64

/-- `DISPLAY_H` (R9, R252). -/
abbrev displayHeight : Nat := 32

/-- `TONE_HZ` (R9, R256). -/
abbrev toneHz : Nat := 440

/-- `FONT`: sixteen glyphs of five bytes each, top row first (R282). -/
abbrev Font := Vector (Vector Byte 5) 16

/-- The default `FONT`: the table of R283, which the spec takes from general knowledge (D16).
PRESUMED; unsafe for a claim that rests on glyph bytes (log 5). -/
def defaultFont : Font :=
  #v[#v[0xF0, 0x90, 0x90, 0x90, 0xF0], #v[0x20, 0x60, 0x20, 0x20, 0x70], #v[0xF0, 0x10, 0xF0, 0x80, 0xF0],
     #v[0xF0, 0x10, 0xF0, 0x10, 0xF0], #v[0x90, 0x90, 0xF0, 0x10, 0x10], #v[0xF0, 0x80, 0xF0, 0x10, 0xF0],
     #v[0xF0, 0x80, 0xF0, 0x90, 0xF0], #v[0xF0, 0x10, 0x20, 0x40, 0x40], #v[0xF0, 0x90, 0xF0, 0x90, 0xF0],
     #v[0xF0, 0x90, 0xF0, 0x10, 0xF0], #v[0xF0, 0x90, 0xF0, 0x90, 0x90], #v[0xE0, 0x90, 0xE0, 0x90, 0xE0],
     #v[0xF0, 0x80, 0x80, 0x80, 0xF0], #v[0xE0, 0x90, 0x90, 0x90, 0xE0], #v[0xF0, 0x80, 0xF0, 0x80, 0xF0],
     #v[0xF0, 0x80, 0xF0, 0x80, 0x80]]

/-- The parameters an implementation fixes for a run (R9, R31). They are held beside the block's state so that a
statement about every state holds for every value of them; no instruction and no reset changes them
(DESIGN CHOICE, safe, log 4). -/
structure Params where
  /-- `IPT`, instructions per tick: any natural number (R245, D24). -/
  ipt : Nat
  /-- `STACK_CAP`: no cap, or the number of entries at which CALL overflows (R26, D6). -/
  stackCap : Option Nat
  /-- `FONT` (R282). -/
  font : Font
deriving DecidableEq, Repr

/-- The defaults of R9: IPT = 10, no stack cap, the font of R283. -/
def Params.default : Params :=
  { ipt := 10, stackCap := none, font := defaultFont }

/-- The random source (R259): the byte that the `n`-th draw gives. A free value: nothing constrains it, and the
uniform distribution is no part of the model (D9; safe, log 8). -/
opaque randomByte : Nat → Byte

end Sys2Proof.Config
end

