-- ==== Sys2Proof/Machine/State.lean ====
section
/-! DEFINITION. The state of the machine as plain data: every piece of state of R20 to R32, the state beside it that
instructions observe (R32), the Scheduler's place in its tick (R245) and the model's own bookkeeping of outside events,
outputs and random draws; and the state right after reset (R34, R280). -/

namespace Sys2Proof.Machine

/-! ### Memory -/

/-- Memory: the bytes that differ from what reset leaves, as (address, byte) pairs with the addresses strictly rising
(R50). -/
abbrev Memory := List Host.Cell

/-- What an address that is not listed reads as: reset makes all memory zero (R34, R280). -/
abbrev unlistedByte : Byte := 0x00

/-- The canonical form from address `lo` up: addresses strictly rising, below 4096, no byte equal to an unlisted one. -/
def Memory.wfFrom : Nat → Memory → Bool
  | _, [] => true
  | lo, (a, b) :: rest =>
    decide (lo ≤ a) && decide (a < Config.memSize) && b != unlistedByte && Memory.wfFrom (a + 1) rest

/-- The canonical form of memory. -/
def Memory.wf (m : Memory) : Bool := Memory.wfFrom 0 m

/-! ### The collaborators' state (R32) -/

/-- The pixel surface: 32 rows of 64 cells, `true` for a set cell (R252). -/
abbrev Grid := Vector (Vector Bool 64) 32

/-- The grid with every cell 0 (R253). -/
def Grid.clear : Grid := Vector.replicate 32 (Vector.replicate 64 false)

/-- The key state: one bit for each logical code 0x0 to 0xF, `true` while the key is held (R257). -/
abbrev Keys := Vector Bool 16

/-- Every key released (R34, D14). -/
def Keys.released : Keys := Vector.replicate 16 false

/-! ### The fatal-error record (R30) -/

/-- The kinds of fatal error (R230). -/
inductive FaultKind where
  /-- `00EE` with an empty call stack (R102). -/
  | stackUnderflow
  /-- An opcode of R76. -/
  | unrecognizedInstruction
  /-- `2nnn` with the stack at `STACK_CAP` entries (R105, D6). -/
  | stackOverflow
deriving DecidableEq, Repr

/-- The triple `(kind, fault_pc, opcode)` of R30: `pc` is the address the opcode was fetched from (R231, D7). -/
structure FaultRecord where
  kind : FaultKind
  pc : Addr
  opcode : Opcode
deriving DecidableEq, Repr

/-! ### The world outside the block (R8) -/

/-- What the host and the key source can send the block between steps (R8, R265). The host's `tick()` is not among
them: the Scheduler of this model begins the next tick as soon as one ends (log 9). -/
inductive HostEvent where
  /-- `reset()` (R280). -/
  | reset
  /-- `load_font()` (R282). -/
  | loadFont
  /-- `load_program(bytes)` (R284). -/
  | loadProgram (bytes : List Byte)
  /-- `key_press(code)` (R258). -/
  | keyPress (code : Byte)
  /-- `key_release(code)` (R258). -/
  | keyRelease (code : Byte)
deriving DecidableEq, Repr

/-- What comes next at a step boundary: an outside event, or none, so that one `step()` runs (R258, D15). -/
inductive Input where
  | event (e : HostEvent)
  | quiet
deriving DecidableEq, Repr

/-- The calls the Scheduler makes to its collaborators at the end of a tick (R247, R248). -/
inductive Output where
  /-- `Tone.start(hz)` (R256). -/
  | toneStart (hz : Nat)
  /-- `Tone.stop()` (R256). -/
  | toneStop
  /-- `Display.present()` (R255). -/
  | present
deriving DecidableEq, Repr

/-! ### The state -/

/-- The state of the machine. -/
structure State where
  /-- Memory: 4096 bytes (R50). -/
  mem : Memory
  /-- V0 to VF (R21). -/
  v : Vector Byte 16
  /-- The program counter (R23). -/
  pc : Addr
  /-- The address register I (R24). -/
  i : IndexWord
  /-- The call stack, its top entry first (R26). -/
  stack : List Addr
  /-- DT, the delay timer (R27). -/
  dt : Byte
  /-- ST, the sound timer (R28). -/
  st : Byte
  /-- The wait-for-key flag (R29). -/
  paused : Bool
  /-- `wait_reg`, the target of the pending wait (R29). -/
  waitReg : Nibble
  /-- The fatal-error record (R30). -/
  fault : Option FaultRecord
  /-- The pixel surface's cells (R32, R252). -/
  grid : Grid
  /-- The key source's bits (R32, R257). -/
  keys : Keys
  /-- IPT, STACK_CAP and FONT, fixed for a run (R31; log 4). -/
  params : Config.Params
  /-- The steps of the current tick still to run; IPT between two ticks (R245; log 9). -/
  stepsLeft : Nat
  /-- The outside events to come, placed among the steps; none left means steps only (R258, D15; log 10). -/
  inputs : List Input
  /-- The Scheduler's calls to its collaborators so far, newest first (R247, R248; log 13). -/
  outputs : List Output
  /-- How many random bytes have been drawn (R259; log 8). -/
  draws : Nat
deriving DecidableEq, Repr

/-- Why the machine would stop with a fault. There is no such reason: the spec's three fatal errors are taken as states
with their record written (R231), and a halted machine keeps answering a next state in which nothing has changed
(R233). The type is empty, and that is safe (log 2). -/
inductive Fault
deriving DecidableEq, Repr

/-- Why the machine refuses. -/
inductive Refusal where
  /-- An arm of `exec` without a meaning would raise it; no arm does. Safe. -/
  | notModelled (mnemonic : String)
  /-- Raised by a `loadProgram` event of more than 3584 bytes, a load the spec admits no meaning for (R284, D20). Safe. -/
  | programTooLong (length : Nat)
  /-- Raised by a `keyPress` or `keyRelease` event with a code above 0xF, which is no valid event (R258, D26). Safe. -/
  | invalidKeyCode (code : Byte)
  /-- Raised by a `reset`, `loadFont` or `loadProgram` event inside a tick: the host calls them between ticks only
  (R280, R265; log 11). Safe. -/
  | commandInsideTick
deriving DecidableEq, Repr

/-- What a step answers. -/
abbrev Result := Host.Outcome State Fault Refusal

/-- The state after `reset()` with given parameters, grid and key state, which reset does not change (R34, R280, R281),
between two ticks, with no outside event to come, no output made and no byte drawn. -/
def State.afterReset (params : Config.Params) (grid : Grid) (keys : Keys) : State :=
  { mem := []
    v := Vector.replicate 16 0x00
    pc := 0x200
    i := 0x0000
    stack := []
    dt := 0x00
    st := 0x00
    paused := false
    waitReg := 0x0
    fault := none
    grid := grid
    keys := keys
    params := params
    stepsLeft := params.ipt
    inputs := []
    outputs := []
    draws := 0 }

/-- The machine right after reset, before `load_font` and `load_program` write their ranges (R34): where the core stands
before the boot events of R285 (log 14). The parameters are the defaults (R9), every key is released (D14) and the grid is
clear. The grid is `DISPLAY_INIT`, which the spec leaves OPEN (D13): DESIGN CHOICE, unsafe, log 6. -/
def State.reset : State :=
  State.afterReset Config.Params.default Grid.clear Keys.released

end Sys2Proof.Machine
end

