-- ==== Sys2Proof/Machine/Ops.lean ====
section
/-! DEFINITION. The named operations over the state: memory (R12, R51), registers (R11, R21 to R24), the stack (R13,
R26), the skip (R100), taking a fatal error (R231) and leaving the halted state by reset (R280), and the ports (R252 to
R259). Every instruction's meaning is written over these. -/

namespace Sys2Proof.Machine

/-! ### Memory (R12, R50, R51) -/

/-- The byte listed at `a`, or what an unlisted address reads as. -/
def Memory.read : Memory → Nat → Byte
  | [], _ => unlistedByte
  | c :: rest, a => if c.1 = a then c.2 else Memory.read rest a

/-- Memory without an entry for `a`. -/
def Memory.erase (m : Memory) (a : Nat) : Memory :=
  m.filter fun c => c.1 != a

/-- Memory with an entry put in its place by address. -/
def Memory.insert : Memory → Nat → Byte → Memory
  | [], a, b => [(a, b)]
  | c :: rest, a, b => if a < c.1 then (a, b) :: c :: rest else c :: Memory.insert rest a b

/-- Memory with `b` at `a`, in the canonical form: the byte an unlisted address reads as is not listed. -/
def Memory.write (m : Memory) (a : Nat) (b : Byte) : Memory :=
  if b = unlistedByte then m.erase a else (m.erase a).insert a b

/-- The byte that an address formed by the Executor names: it is reduced to 12 bits (R51, D1). -/
def wrapAddr (a : Nat) : Nat := a % Config.memSize

/-- `MemRead(a, 1)` (R12). -/
def State.memRead (s : State) (a : Nat) : Byte :=
  s.mem.read (wrapAddr a)

/-- `MemWrite(a, 1, b)` (R12). -/
def State.memWrite (s : State) (a : Nat) (b : Byte) : State :=
  { s with mem := s.mem.write (wrapAddr a) b }

/-- `MemWrite(base + k, 1, bytes[k])` for each k, in increasing order of k (R56). -/
def State.writeBytes (s : State) (base : Nat) : List Byte → State
  | [] => s
  | b :: rest => (s.memWrite base b).writeBytes (base + 1) rest

/-- `Fetch16(a)`: the big-endian value of the bytes at `a` and `a + 1` (R12, R53, R55). -/
def State.fetch16 (s : State) (a : Nat) : Opcode :=
  opcodeOfBytes (s.memRead a) (s.memRead (a + 1))

/-! ### Registers (R11, R21 to R24) -/

/-- `V[x]`. -/
def State.reg (s : State) (x : Nibble) : Byte :=
  s.v[x.toNat]'x.isLt

/-- `V[x] <- b`. -/
def State.setReg (s : State) (x : Nibble) (b : Byte) : State :=
  { s with v := s.v.set x.toNat b x.isLt }

/-- `pc <- t`: stores `t mod 4096` (R23, D3). -/
def State.setPc (s : State) (t : Nat) : State :=
  { s with pc := BitVec.ofNat 12 t }

/-- `I <- t`: stores `t mod 65536` (R24, D2). -/
def State.setI (s : State) (t : Nat) : State :=
  { s with i := BitVec.ofNat 16 t }

/-- The step's advance, `pc <- A + 2`, before the instruction executes (R70, C7). -/
def State.advance (s : State) : State :=
  s.setPc (s.pc.toNat + 2)

/-- The address A of the instruction being executed: pc holds `(A + 2) mod 4096` meanwhile (R23; log 3). -/
def State.instrAddr (s : State) : Addr :=
  s.pc - 2

/-- A skip: `pc <- pc + 2` when its condition holds (R100). -/
def State.skipIf (s : State) (condition : Bool) : State :=
  if condition then s.setPc (s.pc.toNat + 2) else s

/-! ### The call stack (R13, R26) -/

/-- `push(a)`. -/
def State.push (s : State) (a : Addr) : State :=
  { s with stack := a :: s.stack }

/-- `pop()`: the top entry and the state without it; none on an empty stack. -/
def State.pop (s : State) : Option (Addr × State) :=
  match s.stack with
  | [] => none
  | a :: rest => some (a, { s with stack := rest })

/-- The stack holds exactly `STACK_CAP` entries, so a push would overflow; never without a cap (R105, D6). -/
def State.stackFull (s : State) : Bool :=
  match s.params.stackCap with
  | none => false
  | some cap => s.stack.length == cap

/-! ### Fatal errors (R231) and reset (R280) -/

/-- `raise kind` in the instruction at address A with opcode `op`: `fault <- (kind, A, op)`. The step's advance has
written pc already and pc keeps it; nothing else changes (R231, R232, D7). -/
def State.raise (s : State) (kind : FaultKind) (op : Opcode) : State :=
  { s with fault := some { kind := kind, pc := s.instrAddr, opcode := op } }

/-- The machine is halted: a fatal error is recorded (R233). -/
def State.halted (s : State) : Bool :=
  s.fault.isSome

/-- `reset()`: every item of the block's state takes its value of R34; the collaborators' state and the parameters stay
(R280, R281, D21), and so do the model's records of outputs, draws and events to come. The only way out of the halted
state: there is no return from a fatal error (R233, R234). -/
def State.resetBlock (s : State) : State :=
  { s with
    mem := []
    v := Vector.replicate 16 0x00
    pc := BitVec.ofNat 12 Config.programBase
    i := 0x0000
    stack := []
    dt := 0x00
    st := 0x00
    paused := false
    waitReg := 0x0
    fault := none
    stepsLeft := s.params.ipt }

/-! ### The pixel surface (R252 to R254) -/

/-- `cell[X, Y]`, the coordinates reduced to the grid's size (R252). -/
def Grid.cell (g : Grid) (x y : Nat) : Bool :=
  (g[y % 32]'(Nat.mod_lt _ (by decide)))[x % 64]'(Nat.mod_lt _ (by decide))

/-- The grid with the cell at `(x mod 64, y mod 32)` toggled. -/
def Grid.toggle (g : Grid) (x y : Nat) : Grid :=
  g.set (y % 32) ((g[y % 32]'(Nat.mod_lt _ (by decide))).set (x % 64) (!g.cell x y) (Nat.mod_lt _ (by decide)))
    (Nat.mod_lt _ (by decide))

/-- `Display.set_pixel(x, y)`: toggles the cell and answers whether it became unset (R254). -/
def Grid.setPixel (g : Grid) (x y : Nat) : Grid × Bool :=
  (g.toggle x y, !(g.toggle x y).cell x y)

/-- `set_pixel` on each of a list of points in turn, and whether any answered true (R180). -/
def Grid.plot : Grid → List (Nat × Nat) → Grid × Bool
  | g, [] => (g, false)
  | g, p :: rest =>
    let first := g.setPixel p.1 p.2
    let others := Grid.plot first.1 rest
    (others.1, first.2 || others.2)

/-- `Display.clear()` (R253). -/
def State.clearDisplay (s : State) : State :=
  { s with grid := Grid.clear }

/-! ### The key source and the wait (R240, R241, R257) -/

/-- `Keys.is_pressed(code)`: false for a code above 0xF, which names no key (R257, D10). -/
def Keys.isPressed (k : Keys) (code : Byte) : Bool :=
  if h : code.toNat < 16 then k[code.toNat] else false

/-- The key state with the bit of a code set to `pressed`; a code above 0xF names no bit. -/
def Keys.setKey (k : Keys) (code : Byte) (pressed : Bool) : Keys :=
  if h : code.toNat < 16 then k.set code.toNat pressed else k

/-- Entering the wait: `paused <- true`, `wait_reg <- x` (R202, R240). -/
def State.beginWait (s : State) (x : Nibble) : State :=
  { s with paused := true, waitReg := x }

/-- The hand-off that ends the wait: `V[wait_reg] <- code`, `paused <- false` (R241). -/
def State.handOff (s : State) (code : Byte) : State :=
  { s.setReg s.waitReg code with paused := false }

/-! ### The random source (R259) -/

/-- `Rng.random_byte()`: the next free byte, and the state with one more draw made. -/
def State.drawByte (s : State) : Byte × State :=
  (Config.randomByte s.draws, { s with draws := s.draws + 1 })

end Sys2Proof.Machine
end

