-- ==== Sys2Proof/Machine/Operands.lean ====
section
/-! DEFINITION. The operands that instructions compute before they act: addresses formed from I (R51, R56), jump
targets (R162), the glyph address (R206), decimal digits (R207), the registers of a block transfer (R208, R209) and the
points of a sprite (R180, R181). -/

namespace Sys2Proof.Machine

/-- `I + k`, not yet reduced (R56; the access reduces it, R51). -/
def State.indexAddr (s : State) (k : Nat) : Nat :=
  s.i.toNat + k

/-- `nnn + V[0]`, at most 0x10FE (R162). -/
def State.jumpV0Target (s : State) (nnn : Addr) : Nat :=
  nnn.toNat + (s.reg 0x0).toNat

/-- `V[x] * 5`, the address of the glyph for digit `V[x]`, with no mask (R206). -/
def glyphAddr (digit : Byte) : Nat :=
  digit.toNat * 5

/-- The hundreds, tens and ones of a byte (R207). -/
def decimalDigits (b : Byte) : List Byte :=
  [BitVec.ofNat 8 (b.toNat / 100), BitVec.ofNat 8 (b.toNat / 10 % 10), BitVec.ofNat 8 (b.toNat % 10)]

/-- `V[0]` to `V[x]` in order (R208). -/
def State.regsThrough (s : State) (x : Nibble) : List Byte :=
  s.v.toList.take (x.toNat + 1)

/-- The registers with `V[k] <- MemRead(I + k, 1)` done for k from 0 to x (R209). -/
def State.loadedRegs (s : State) (x : Nibble) : Vector Byte 16 :=
  Vector.ofFn fun k => if k.val ≤ x.toNat then s.memRead (s.indexAddr k.val) else s.v[k]

/-- The columns of a sprite row to plot, left to right: the most significant bit is column 0 (R180). -/
def rowColumns (b : Byte) : List Nat :=
  (List.range 8).filter fun c => b.getLsbD (7 - c)

/-- The points that `DRW Vx, Vy, n` plots, row by row from the top, from the origin `(V[x], V[y])` (R180, R181). -/
def State.spritePoints (s : State) (x y n : Nibble) : List (Nat × Nat) :=
  (List.range n.toNat).flatMap fun r =>
    (rowColumns (s.memRead (s.indexAddr r))).map fun c => ((s.reg x).toNat + c, (s.reg y).toNat + r)

end Sys2Proof.Machine
end

