-- ==== Sys2Proof/Machine/Alu.lean ====
section
/-! DEFINITION. Families 0x6 to 0x8 (spec 41_alu): immediate loads and the arithmetic and logic group. The flag-writing
operations write VF and V[x] in the order their rules state them, and a read sees every earlier write of the same
instruction (R11, R132, D5). -/

namespace Sys2Proof.Machine

/-- 6xkk `LD Vx, kk`: `V[x] <- kk` (R130). -/
def execLdImm (x : Nibble) (kk : Byte) (s : State) : Result :=
  .next (s.setReg x kk)

/-- 7xkk `ADD Vx, kk`: `V[x] <- (V[x] + kk) mod 256`, no flag (R131). -/
def execAddImm (x : Nibble) (kk : Byte) (s : State) : Result :=
  .next (s.setReg x (s.reg x + kk))

/-- 8xy0 `LD Vx, Vy`: `V[x] <- V[y]` (R133). -/
def execLdReg (x y : Nibble) (s : State) : Result :=
  .next (s.setReg x (s.reg y))

/-- 8xy1 `OR Vx, Vy` (R134). -/
def execOrReg (x y : Nibble) (s : State) : Result :=
  .next (s.setReg x (s.reg x ||| s.reg y))

/-- 8xy2 `AND Vx, Vy` (R135). -/
def execAndReg (x y : Nibble) (s : State) : Result :=
  .next (s.setReg x (s.reg x &&& s.reg y))

/-- 8xy3 `XOR Vx, Vy` (R136). -/
def execXorReg (x y : Nibble) (s : State) : Result :=
  .next (s.setReg x (s.reg x ^^^ s.reg y))

/-- 8xy4 `ADD Vx, Vy`: the sum is read before any write, then VF takes the carry, then V[x] the sum (R137). -/
def execAddReg (x y : Nibble) (s : State) : Result :=
  let sum := sumOf (s.reg x) (s.reg y)
  let flagged := s.setReg vf (carryFlag (s.reg x) (s.reg y))
  .next (flagged.setReg x (BitVec.ofNat 8 sum))

/-- 8xy5 `SUB Vx, Vy`: VF takes the strict no-borrow flag, then V[x] the difference of the registers as they then stand
(R138, D5). -/
def execSubReg (x y : Nibble) (s : State) : Result :=
  let flagged := s.setReg vf (noBorrowFlag (s.reg x) (s.reg y))
  .next (flagged.setReg x (flagged.reg x - flagged.reg y))

/-- 8xy6 `SHR Vx`: VF takes the low bit, then V[x] as it then stands is shifted right; y is not used (R139, D5). -/
def execShr (x _y : Nibble) (s : State) : Result :=
  let flagged := s.setReg vf (lowBitFlag (s.reg x))
  .next (flagged.setReg x (flagged.reg x >>> 1))

/-- 8xy7 `SUBN Vx, Vy`: VF takes the strict no-borrow flag of V[y] - V[x], then V[x] that difference of the registers as
they then stand (R140, D5). -/
def execSubn (x y : Nibble) (s : State) : Result :=
  let flagged := s.setReg vf (noBorrowFlag (s.reg y) (s.reg x))
  .next (flagged.setReg x (flagged.reg y - flagged.reg x))

/-- 8xyE `SHL Vx`: VF takes `V[x] & 0x80`, then V[x] as it then stands is shifted left; y is not used (R141, D5). -/
def execShl (x _y : Nibble) (s : State) : Result :=
  let flagged := s.setReg vf (highBitFlag (s.reg x))
  .next (flagged.setReg x (flagged.reg x <<< 1))

end Sys2Proof.Machine
end

