-- ==== Sys2Proof/Machine/Draw.lean ====
section
/-! DEFINITION. Families 0xD and 0xE (spec 43_draw_keys): the sprite draw and the skips on a key. -/

namespace Sys2Proof.Machine

/-- Dxyn `DRW Vx, Vy, n`: plots the set bits of the n sprite bytes at I by XOR, then VF takes the collision flag; the
origin and I are read before VF is written (R180, R181). -/
def execDrw (x y n : Nibble) (s : State) : Result :=
  let plotted := s.grid.plot (s.spritePoints x y n)
  let drawn : State := { s with grid := plotted.1 }
  .next (drawn.setReg vf (collisionFlag plotted.2))

/-- Ex9E `SKP Vx`: skip if the key whose code is `V[x]` is pressed (R182). -/
def execSkp (x : Nibble) (s : State) : Result :=
  .next (s.skipIf (s.keys.isPressed (s.reg x)))

/-- ExA1 `SKNP Vx`: skip if the key whose code is `V[x]` is not pressed (R183). -/
def execSknp (x : Nibble) (s : State) : Result :=
  .next (s.skipIf (!s.keys.isPressed (s.reg x)))

end Sys2Proof.Machine
end

