-- ==== Sys2Proof/Machine/FGroup.lean ====
section
/-! DEFINITION. Family 0xF (spec 44_fgroup): timers, the key wait, index arithmetic and memory transfers. -/

namespace Sys2Proof.Machine

/-- Fx07 `LD Vx, DT`: `V[x] <- DT` (R201). -/
def execLdVxDt (x : Nibble) (s : State) : Result :=
  .next (s.setReg x s.dt)

/-- Fx0A `LD Vx, K`: the machine enters the wait with target x; V[x] is written by the hand-off (R202, R241). -/
def execLdVxKey (x : Nibble) (s : State) : Result :=
  .next (s.beginWait x)

/-- Fx15 `LD DT, Vx`: `DT <- V[x]` (R203). -/
def execLdDtVx (x : Nibble) (s : State) : Result :=
  .next { s with dt := s.reg x }

/-- Fx18 `LD ST, Vx`: `ST <- V[x]` (R204). -/
def execLdStVx (x : Nibble) (s : State) : Result :=
  .next { s with st := s.reg x }

/-- Fx1E `ADD I, Vx`: `I <- (I + V[x]) mod 65536`; VF is not written (R205, D2, D12). -/
def execAddIVx (x : Nibble) (s : State) : Result :=
  .next (s.setI (s.i.toNat + (s.reg x).toNat))

/-- Fx29 `LD F, Vx`: `I <- V[x] * 5` (R206). -/
def execLdFVx (x : Nibble) (s : State) : Result :=
  .next (s.setI (glyphAddr (s.reg x)))

/-- Fx33 `LD B, Vx`: the three decimal digits of V[x] go to I, I + 1, I + 2; I stays (R207). -/
def execLdBVx (x : Nibble) (s : State) : Result :=
  .next (s.writeBytes (s.indexAddr 0) (decimalDigits (s.reg x)))

/-- Fx55 `LD [I], Vx`: V0 to Vx go to I, I + 1, ...; I stays (R208, D11). -/
def execStoreRegs (x : Nibble) (s : State) : Result :=
  .next (s.writeBytes (s.indexAddr 0) (s.regsThrough x))

/-- Fx65 `LD Vx, [I]`: V0 to Vx come from I, I + 1, ...; I stays (R209, D11). -/
def execLoadRegs (x : Nibble) (s : State) : Result :=
  .next { s with v := s.loadedRegs x }

end Sys2Proof.Machine
end

