-- ==== Sys2Proof/Machine/Flow.lean ====
section
/-! DEFINITION. Families 0x0 to 0x5 (spec 40_flow): CLS, RET, SYS, JP, CALL and the skips on registers. Each meaning
starts from the state in which the step has already advanced pc to A + 2 (R70). -/

namespace Sys2Proof.Machine

/-- 00E0 `CLS`: every cell of the pixel surface becomes 0 (R101). -/
def execCls (s : State) : Result :=
  .next s.clearDisplay

/-- 00EE `RET`: `pc <- pop()`; on an empty stack the fatal error StackUnderflow (R102). -/
def execRet (s : State) : Result :=
  match s.pop with
  | none => .next (s.raise .stackUnderflow (encode .ret))
  | some (a, popped) => .next (popped.setPc a.toNat)

/-- 0nnn `SYS nnn`: no operation (R103). -/
def execSys (_nnn : Addr) (s : State) : Result :=
  .next s

/-- 1nnn `JP nnn`: `pc <- nnn` (R104). -/
def execJp (nnn : Addr) (s : State) : Result :=
  .next (s.setPc nnn.toNat)

/-- 2nnn `CALL nnn`: pushes the advanced pc and jumps; at the stack cap the fatal error StackOverflow (R105). -/
def execCall (nnn : Addr) (s : State) : Result :=
  if s.stackFull then .next (s.raise .stackOverflow (encode (.call nnn)))
  else .next ((s.push s.pc).setPc nnn.toNat)

/-- 3xkk `SE Vx, kk`: skip if `V[x] = kk` (R106). -/
def execSeImm (x : Nibble) (kk : Byte) (s : State) : Result :=
  .next (s.skipIf (s.reg x == kk))

/-- 4xkk `SNE Vx, kk`: skip if `V[x] != kk` (R107). -/
def execSneImm (x : Nibble) (kk : Byte) (s : State) : Result :=
  .next (s.skipIf (s.reg x != kk))

/-- 5xyN `SE Vx, Vy`: skip if `V[x] = V[y]`; N is ignored (R108). -/
def execSeReg (x y _n : Nibble) (s : State) : Result :=
  .next (s.skipIf (s.reg x == s.reg y))

end Sys2Proof.Machine
end

