-- ==== Sys2Proof/Machine/Misc.lean ====
section
/-! DEFINITION. Families 0x9 to 0xC (spec 42_misc): the register skip, the index load, the indexed jump and the masked
random byte. -/

namespace Sys2Proof.Machine

/-- 9xyN `SNE Vx, Vy`: skip if `V[x] != V[y]`; N is ignored (R160). -/
def execSneReg (x y _n : Nibble) (s : State) : Result :=
  .next (s.skipIf (s.reg x != s.reg y))

/-- Annn `LD I, nnn`: `I <- nnn`, zero-extended (R161). -/
def execLdI (nnn : Addr) (s : State) : Result :=
  .next (s.setI nnn.toNat)

/-- Bnnn `JP V0, nnn`: `pc <- nnn + V[0]`, stored mod 4096 (R162, D3). -/
def execJpV0 (nnn : Addr) (s : State) : Result :=
  .next (s.setPc (s.jumpV0Target nnn))

/-- Cxkk `RND Vx, kk`: one draw r, then `V[x] <- r & kk` (R163, R259). -/
def execRnd (x : Nibble) (kk : Byte) (s : State) : Result :=
  let draw := s.drawByte
  .next (draw.2.setReg x (draw.1 &&& kk))

end Sys2Proof.Machine
end

