-- ==== Sys2Proof/Machine/Executor.lean ====
section
/-! DEFINITION. The Executor's `step()` (R70): nothing while halted or waiting, else fetch, advance, decode, execute. -/

namespace Sys2Proof.Machine

/-- Goes on with a next state; a fault or a refusal stays as it is. -/
def Result.andThen (r : Result) (f : State → Result) : Result :=
  match r with
  | .next s => f s
  | .fault e => .fault e
  | .refused e => .refused e

/-- The fetch of `step()`: the opcode at pc (R55). -/
def State.fetchOpcode (s : State) : Opcode :=
  s.fetch16 s.pc.toNat

/-- The part of `step()` after its fetch, for an opcode fetched at pc: pc is advanced by 2 first; an illegal opcode is
the fatal error UnrecognizedInstruction (R70, R76, R231). -/
def executeOpcode (op : Opcode) (s : State) : Result :=
  match decodeOpcode op with
  | .ok i => exec i s.advance
  | .error _ => .next (s.advance.raise .unrecognizedInstruction op)

/-- `step()` (R70): does nothing when halted (R233) or waiting for a key (R242). -/
def executorStep (s : State) : Result :=
  if s.halted then .next s
  else if s.paused then .next s
  else executeOpcode s.fetchOpcode s

end Sys2Proof.Machine
end

