-- ==== Sys2Proof/Machine/Scheduler.lean ====
section
/-! DEFINITION. The Scheduler: `tick()` whole, as R245 writes it, and the same tick one step at a time, as the machine
runs it. That the two agree is a statement for the provers. -/

namespace Sys2Proof.Machine

/-- A timer one lower, never below 0 (R246). -/
def timerTick (t : Byte) : Byte :=
  if t = 0x00 then 0x00 else t - 1

/-- The timers' decrement at the end of a tick: not while the machine waits for a key (R246, C5). -/
def State.decrementTimers (s : State) : State :=
  if s.paused then s else { s with dt := timerTick s.dt, st := timerTick s.st }

/-- The audio gate: `Tone.start(440)` if ST > 0, else `Tone.stop()` (R247). -/
def toneCall (st : Byte) : Output :=
  if st.toNat > 0 then .toneStart Config.toneHz else .toneStop

/-- One more call to a collaborator (R247, R248). -/
def State.emit (s : State) (o : Output) : State :=
  { s with outputs := o :: s.outputs }

/-- What a tick does after its steps: the decrement, then the tone call on the ST so left, then `present()` (R245,
R247, R248). -/
def State.finishTick (s : State) : State :=
  let lowered := s.decrementTimers
  (lowered.emit (toneCall lowered.st)).emit .present

/-- At most `k` steps, ending at a fatal error (R245). -/
def runQuota : Nat → State → Result
  | 0, s => .next s
  | k + 1, s => (executorStep s).andThen fun t => if t.halted then .next t else runQuota k t

/-- `tick()` (R245): nothing when halted; IPT steps; the end of the tick unless a fatal error ended it (R233). -/
def tick (s : State) : Result :=
  if s.halted then .next s
  else (runQuota s.params.ipt s).andThen fun t => if t.halted then .next t else .next t.finishTick

/-- The machine stands between two ticks: none of the current tick's steps has run, or a fatal error has ended the tick
(R233, R245, R280). -/
def State.betweenTicks (s : State) : Bool :=
  s.halted || s.stepsLeft == s.params.ipt

/-- The Scheduler's place after one `step()`: a fatal error ends the tick at once (R233); the last step of the quota is
followed by the end of the tick, with no outside event between them (R245, D15); the next tick then begins. -/
def State.afterStep (s : State) : State :=
  if s.halted then { s with stepsLeft := s.params.ipt }
  else if s.stepsLeft ≤ 1 then { s.finishTick with stepsLeft := s.params.ipt }
  else { s with stepsLeft := s.stepsLeft - 1 }

/-- One move of the block by itself: nothing when halted (R233); one `step()` and the Scheduler's part after it; with
IPT = 0 a whole tick, which has no step (D24). -/
def runStep (s : State) : Result :=
  if s.halted then .next s
  else if s.stepsLeft = 0 then .next { s.finishTick with stepsLeft := s.params.ipt }
  else (executorStep s).andThen fun t => .next t.afterStep

end Sys2Proof.Machine
end

