-- ==== Sys2Proof/Machine/HostEvents.lean ====
section
/-! DEFINITION. What the host and the key source do to the block between steps (R8, R258, R265), and the one move of the
machine: the next outside event, or one step. -/

namespace Sys2Proof.Machine

/-- The 80 bytes of `FONT`, glyph by glyph (R282). -/
def fontBytes (font : Config.Font) : List Byte :=
  font.toList.flatMap fun glyph => glyph.toList

/-- `load_font()`: `FONT[k]` to byte k for k from 0 to 79 (R282). -/
def State.loadFont (s : State) : State :=
  s.writeBytes Config.fontBase (fontBytes s.params.font)

/-- `load_program(bytes)`: `bytes[k]` to byte 0x200 + k; more than 3584 bytes are refused (R284, D20). -/
def loadProgram (bytes : List Byte) (s : State) : Result :=
  if bytes.length ≤ Config.maxProgram then .next (s.writeBytes Config.programBase bytes)
  else .refused (.programTooLong bytes.length)

/-- What the host sends after each reset and before the first tick, in this order (R265, R285). -/
def bootEvents (image : List Byte) : List Input :=
  [.event .loadFont, .event (.loadProgram image)]

/-- The launch state of R285, at which a run of a program starts (D22): the state after reset with `FONT` loaded at 0x000
and the image at 0x200. The image, of at most 3584 bytes (D20), is the host's; `bootEvents` lead to this state. -/
def State.launch (params : Config.Params) (grid : Grid) (keys : Keys) (image : List Byte) : State :=
  (State.afterReset params grid keys).loadFont.writeBytes Config.programBase image

/-- `key_press(code)`: sets the key's bit and ends a pending wait; a code above 0xF is no event (R241, R258, D26). -/
def keyPress (code : Byte) (s : State) : Result :=
  if code.toNat < 16 then
    let pressed : State := { s with keys := s.keys.setKey code true }
    .next (if s.paused then pressed.handOff code else pressed)
  else .refused (.invalidKeyCode code)

/-- `key_release(code)`: clears the key's bit and does nothing else (R241, R258, D26). -/
def keyRelease (code : Byte) (s : State) : Result :=
  if code.toNat < 16 then .next { s with keys := s.keys.setKey code false }
  else .refused (.invalidKeyCode code)

/-- A command that the host calls between ticks only (R265, R280). -/
def betweenTicksOnly (command : State → Result) (s : State) : Result :=
  if s.betweenTicks then command s else .refused .commandInsideTick

/-- The effect of one outside event (R8, R265). -/
def deliver : HostEvent → State → Result
  | .reset, s => betweenTicksOnly (fun t => .next t.resetBlock) s
  | .loadFont, s => betweenTicksOnly (fun t => .next t.loadFont) s
  | .loadProgram bytes, s => betweenTicksOnly (loadProgram bytes) s
  | .keyPress code, s => keyPress code s
  | .keyRelease code, s => keyRelease code s

/-- One move of the machine: the next of `inputs` if any is left, an outside event taking effect between two steps
(R258, D15); else, or at a quiet boundary, one step (R70, R245). -/
def moveOnce (s : State) : Result :=
  match s.inputs with
  | [] => runStep s
  | .quiet :: rest => runStep { s with inputs := rest }
  | .event e :: rest => deliver e { s with inputs := rest }

/-- `s` ready to run, as its very next move, the instruction with these bytes: the bytes stand at pc, the machine is
neither halted nor waiting, the tick has a step left, and no outside event comes first (log 12). -/
def State.readyToRun (s : State) (bytes : List Byte) : State :=
  { s.writeBytes s.pc.toNat bytes with
    paused := false
    fault := none
    stepsLeft := max 1 s.stepsLeft
    inputs :=
      match s.inputs with
      | .event e :: rest => .quiet :: .event e :: rest
      | other => other }

end Sys2Proof.Machine
end

