-- ==== Sys2Proof/Machine/Step.lean ====
section
/-! DEFINITION. One step of the machine, and the state that runs a given instruction next. -/

namespace Sys2Proof.Machine

/-- One step: an outside event that comes before the next `step()`, or one `step()` with the Scheduler's part after it
(R70, R245, R258). -/
def step (s : State) : Host.Outcome State Fault Refusal :=
  moveOnce s

/-- `s` with the instruction whose bits are `w` (numbered as the opcode table numbers them) at pc, so that `step` runs
exactly it. From reset only memory changes. -/
def State.withFetchWord (s : State) (nbits w : Nat) : State :=
  s.readyToRun (tableWordBytes nbits w)

end Sys2Proof.Machine
end

