-- ==== Sys2Proof/Safety.lean ====
section
/-! DEFINITION. The terms that statements are made in: the invariants of a run, the moves in which one instruction
executes, and what each instruction may write. -/

namespace Sys2Proof.Machine

/-! ### Invariants -/

/-- The Scheduler's place is a place in a tick of IPT steps (R245): never past the quota, and never at 0 between two
moves unless IPT is 0. -/
def State.ScheduleInv (s : State) : Prop :=
  s.stepsLeft ≤ s.params.ipt ∧ (0 < s.params.ipt → 0 < s.stepsLeft)

/-- The call stack is within STACK_CAP where there is one (R26, R105). -/
def State.StackInv (s : State) : Prop :=
  ∀ cap, s.params.stackCap = some cap → s.stack.length ≤ cap

/-- A fatal-error record says what its kind means (R230): the opcode is of the set that raises the kind, pc is the
offending address plus 2 (R231), the stack is as the kind requires, and the machine is not waiting for a key (R235,
R243). -/
def State.FaultInv (s : State) : Prop :=
  ∀ f, s.fault = some f →
    s.pc = f.pc + 2 ∧ s.paused = false ∧
      match f.kind with
      | .stackUnderflow => f.opcode = 0x00EE ∧ s.stack = []
      | .unrecognizedInstruction => decodeOpcode f.opcode = .error (.unrecognizedInstruction f.opcode)
      | .stackOverflow => fieldF f.opcode = 0x2 ∧ s.params.stackCap = some s.stack.length

/-- What every reachable state satisfies beside the canonical form of memory. -/
structure State.Inv (s : State) : Prop where
  schedule : s.ScheduleInv
  stack : s.StackInv
  fault : s.FaultInv

/-! ### Moves -/

/-- The next move executes an instruction: no outside event comes first, the machine is neither halted nor waiting, and
the tick has a step left (R70, R245). -/
def State.Ready (s : State) : Prop :=
  s.inputs = [] ∧ s.fault = none ∧ s.paused = false ∧ 0 < s.stepsLeft

/-- No outside event is left: only `step()`s follow. -/
def State.Undisturbed (s : State) : Prop :=
  s.inputs = []

/-- Two states that differ at most in bits 15:12 of I (R25). -/
def State.SameButHighI (s t : State) : Prop :=
  t = { s with i := t.i } ∧ wrapAddr s.i.toNat = wrapAddr t.i.toNat

/-- The same relation on what a step answers. -/
def Result.SameButHighI : Result → Result → Prop
  | .next s, .next t => s.SameButHighI t
  | .refused e, .refused e' => e = e'
  | _, _ => False

/-! ### The sprite -/

/-- `DRW Vx, Vy, n` plots the cell (X, Y) in state `s`: some row r and column c of the sprite hold a set bit there, the
most significant bit leftmost, and the coordinates wrap (R180, R181). -/
def State.SpriteCovers (s : State) (x y n : Nibble) (X Y : Nat) : Prop :=
  ∃ r c, r < n.toNat ∧ c < 8 ∧ (s.memRead (s.i.toNat + r)).getLsbD (7 - c) = true ∧
    ((s.reg x).toNat + c) % 64 = X ∧ ((s.reg y).toNat + r) % 32 = Y

end Sys2Proof.Machine

namespace Sys2Proof

open Sys2Proof.Machine

/-! ### What an instruction may write -/

/-- The instructions that write VF as a side effect (R22). -/
def Instr.writesFlag : Instr → Bool
  | .addReg _ _ | .subReg _ _ | .shr _ _ | .subn _ _ | .shl _ _ | .drw _ _ _ => true
  | .cls | .ret | .sys _ | .jp _ | .call _ | .seImm _ _ | .sneImm _ _ | .seReg _ _ _ | .ldImm _ _ | .addImm _ _
  | .ldReg _ _ | .orReg _ _ | .andReg _ _ | .xorReg _ _ | .sneReg _ _ _ | .ldI _ | .jpV0 _ | .rnd _ _ | .skp _
  | .sknp _ | .ldVxDt _ | .ldVxKey _ | .ldDtVx _ | .ldStVx _ | .addIVx _ | .ldFVx _ | .ldBVx _ | .storeRegs _
  | .loadRegs _ => false

/-- The registers an instruction names as its destination. `Fx0A` is not among them: its target is written by the
hand-off of the key press, not by the instruction (R202, R241). -/
def Instr.destination : Instr → Nibble → Bool
  | .ldImm x _, r | .addImm x _, r | .ldReg x _, r | .orReg x _, r | .andReg x _, r | .xorReg x _, r
  | .addReg x _, r | .subReg x _, r | .shr x _, r | .subn x _, r | .shl x _, r | .rnd x _, r | .ldVxDt x, r => r == x
  | .loadRegs x, r => decide (r.toNat ≤ x.toNat)
  | .cls, _ | .ret, _ | .sys _, _ | .jp _, _ | .call _, _ | .seImm _ _, _ | .sneImm _ _, _ | .seReg _ _ _, _
  | .sneReg _ _ _, _ | .ldI _, _ | .jpV0 _, _ | .drw _ _ _, _ | .skp _, _ | .sknp _, _ | .ldVxKey _, _
  | .ldDtVx _, _ | .ldStVx _, _ | .addIVx _, _ | .ldFVx _, _ | .ldBVx _, _ | .storeRegs _, _ => false

/-- The instruction stores the byte at address `a` of state `s` (R56). -/
def Instr.storesTo (i : Instr) (s : State) (a : Nat) : Prop :=
  match i with
  | .ldBVx _ => ∃ k, k < 3 ∧ wrapAddr a = wrapAddr (s.indexAddr k)
  | .storeRegs x => ∃ k, k ≤ x.toNat ∧ wrapAddr a = wrapAddr (s.indexAddr k)
  | .cls | .ret | .sys _ | .jp _ | .call _ | .seImm _ _ | .sneImm _ _ | .seReg _ _ _ | .ldImm _ _ | .addImm _ _
  | .ldReg _ _ | .orReg _ _ | .andReg _ _ | .xorReg _ _ | .addReg _ _ | .subReg _ _ | .shr _ _ | .subn _ _
  | .shl _ _ | .sneReg _ _ _ | .ldI _ | .jpV0 _ | .rnd _ _ | .drw _ _ _ | .skp _ | .sknp _ | .ldVxDt _
  | .ldVxKey _ | .ldDtVx _ | .ldStVx _ | .addIVx _ | .ldFVx _ | .loadRegs _ => False

end Sys2Proof
end

