-- ==== Sys2Proof/Certificates/Slice0/Obligations.lean ====
section
/-! DEFINITION. The statements for the provers. The meanings run in the state in which the step has already advanced pc
(R70), so in a statement about `exec i s` the instruction's address A is `s.pc - 2` and `s.pc` is A + 2. -/

open Sys2Proof Sys2Proof.Machine

/-! ### Encoding -/

/-- R72, R75: decoding the encoding of a well-formed instruction gives it back, with every operand, from its opcode and
from its bytes in memory order with any bytes after them. -/
def Obligations.DecodeEncodeRoundTrip : Prop :=
  ∀ (i : Instr) (rest : List Byte), i.wellFormed = true →
    decodeOpcode (encode i) = .ok i ∧ decode (encodeBytes i ++ rest) = .ok (i, rest)

/-- R72, R75: the other direction: an opcode that decodes is the encoding of what it decodes to, which is well formed. No
two opcodes mean the same instruction and no bit is dropped. -/
def Obligations.EncodeDecodeRoundTrip : Prop :=
  ∀ (op : Opcode) (i : Instr), decodeOpcode op = .ok i → encode i = op ∧ i.wellFormed = true

/-- R76: the illegal encodings are exactly those the rule lists; every other opcode decodes (R77). -/
def Obligations.IllegalOpcodesExactly : Prop :=
  ∀ op : Opcode,
    (decodeOpcode op = .error (.unrecognizedInstruction op) ↔
      (fieldF op = 0x8 ∧ fieldN op ∈ ([0x8, 0x9, 0xA, 0xB, 0xC, 0xD, 0xF] : List Nibble)) ∨
      (fieldF op = 0xE ∧ fieldKK op ∉ ([0x9E, 0xA1] : List Byte)) ∨
      (fieldF op = 0xF ∧ fieldKK op ∉ ([0x07, 0x0A, 0x15, 0x18, 0x1E, 0x29, 0x33, 0x55, 0x65] : List Byte))) ∧
    (decodeOpcode op ≠ .error (.unrecognizedInstruction op) → ∃ i, decodeOpcode op = .ok i)

/-- Words written out bit by bit from R72 and R75 decode to the instructions they stand for. -/
def Obligations.SampleWordsDecode : Prop :=
  decodeTableWord 16 0b0000000011101110 = some .ret ∧
  decodeTableWord 16 0b0011101001000010 = some (.seImm 0xA 0x42) ∧
  decodeTableWord 16 0b1000001101110110 = some (.shr 0x3 0x7) ∧
  decodeTableWord 16 0b1100001100001111 = some (.rnd 0x3 0x0F) ∧
  decodeTableWord 16 0b1101000000010101 = some (.drw 0x0 0x1 0x5) ∧
  decodeTableWord 16 0b1110001010100001 = some (.sknp 0x2) ∧
  decodeTableWord 16 0b1111001001010101 = some (.storeRegs 0x2) ∧
  decodeTableWord 16 0b1000000100101000 = none

/-! ### The step -/

/-- R70: where no outside event comes first, the machine is neither halted nor waiting and the tick has a step left, a
step runs the instruction that the bytes at pc decode to, on the state with pc advanced by 2; around it the model adds the
Scheduler's bookkeeping `afterStep` (R245). The same at a boundary that the input list marks quiet, which it then loses. -/
def Obligations.StepRunsDecodedInstruction : Prop :=
  ∀ (s : State) (i : Instr), decodeOpcode s.fetchOpcode = .ok i →
    (s.Ready → step s = Result.andThen (exec i { s with pc := s.pc + 2 }) fun t => .next t.afterStep) ∧
    (∀ rest, s.inputs = .quiet :: rest → s.fault = none → s.paused = false → 0 < s.stepsLeft →
      step s = Result.andThen (exec i { s with pc := s.pc + 2, inputs := rest }) fun t => .next t.afterStep)

/-- R53, R55: the fetched opcode's high byte is the byte at pc and its low byte is the byte at pc + 1, which at pc = 0xFFF
is the byte at 0x000. -/
def Obligations.FetchIsBigEndian : Prop :=
  ∀ s : State,
    s.fetchOpcode.extractLsb' 8 8 = s.memRead s.pc.toNat ∧
    s.fetchOpcode.extractLsb' 0 8 = s.memRead ((s.pc.toNat + 1) % 4096)

/-- R70: the Executor's step does nothing when halted (D8) or waiting; else it executes the instruction the opcode decodes
to with pc advanced by 2 first, and on an illegal opcode records UnrecognizedInstruction with the opcode's address and raw
value, pc keeping A + 2 (R76, R231, D7). -/
def Obligations.ExecutorStepContract : Prop :=
  ∀ s : State,
    (s.fault ≠ none → executorStep s = .next s) ∧
    (s.fault = none → s.paused = true → executorStep s = .next s) ∧
    (s.fault = none → s.paused = false → ∀ i, decodeOpcode s.fetchOpcode = .ok i →
      executorStep s = exec i { s with pc := s.pc + 2 }) ∧
    (s.fault = none → s.paused = false → ∀ e, decodeOpcode s.fetchOpcode = .error e →
      executorStep s =
        .next { s with pc := s.pc + 2, fault := some ⟨.unrecognizedInstruction, s.pc, s.fetchOpcode⟩ })

/-- R14, R230: no instruction stops the machine: every instruction answers a next state in every state, and so does every
step that no outside event precedes. -/
def Obligations.EveryStepAnswersNext : Prop :=
  (∀ (i : Instr) (s : State), ∃ t, exec i s = .next t) ∧
  (∀ s : State, s.inputs = [] → ∃ t, step s = .next t)

/-! ### Fatal errors -/

/-- R233 (by D8): a halted machine's step and tick change nothing. -/
def Obligations.HaltedDoesNothing : Prop :=
  ∀ s : State, s.fault ≠ none →
    executorStep s = .next s ∧ tick s = .next s ∧ (s.inputs = [] → step s = .next s)

/-- R233 (by D8): no move but a reset changes the fatal-error record of a halted machine. -/
def Obligations.OnlyResetLeavesHalt : Prop :=
  ∀ s t : State, s.fault ≠ none → step s = .next t →
    t.fault = s.fault ∨ (t.fault = none ∧ ∃ rest, s.inputs = .event .reset :: rest)

/-- R231, R232, R233 (by D7, D8): a step that records a fatal error changes pc (by 2) and the record alone, the record
holds the address and the raw opcode of the instruction, and the tick ends there: no decrement, no tone call, no present. -/
def Obligations.FatalErrorIsPreciseAndEndsTick : Prop :=
  ∀ s t : State, s.Ready → executorStep s = .next t → t.fault ≠ none →
    (∃ k, t = { s with pc := s.pc + 2, fault := some ⟨k, s.pc, s.fetchOpcode⟩ }) ∧
    step s = .next { t with stepsLeft := s.params.ipt }

/-- R230, R235: an instruction records a fatal error only if it is RET on an empty stack or CALL on a stack that holds
exactly STACK_CAP entries (D6). -/
def Obligations.InstructionsThatRaise : Prop :=
  ∀ (i : Instr) (s t : State), s.fault = none → exec i s = .next t → ∀ f, t.fault = some f →
    (i = .ret ∧ s.stack = [] ∧ f.kind = .stackUnderflow) ∨
    ((∃ nnn, i = .call nnn) ∧ s.params.stackCap = some s.stack.length ∧ f.kind = .stackOverflow)

/-! ### Invariants -/

/-- R50, R51: every move keeps memory in its canonical form: addresses strictly rising and below 4096, no byte listed that
equals an unlisted one. -/
def Obligations.StepKeepsMemoryCanonical : Prop :=
  ∀ s t : State, s.mem.wf = true → step s = .next t → t.mem.wf = true

/-- R26, R230, R231, R235, R243, R245: every move keeps the invariant of the Scheduler's place, the stack cap and the
fatal-error record. -/
def Obligations.StepKeepsInv : Prop :=
  ∀ s t : State, s.Inv → step s = .next t → t.Inv

/-- The reset state meets both invariants, and so do the state after reset and the launch state of any image, for any
parameters, grid and key state. -/
def Obligations.ResetMeetsInvariants : Prop :=
  State.reset.mem.wf = true ∧ State.reset.Inv ∧
  ∀ params grid keys, (State.afterReset params grid keys).mem.wf = true ∧ (State.afterReset params grid keys).Inv ∧
    ∀ bytes, (State.launch params grid keys bytes).mem.wf = true ∧ (State.launch params grid keys bytes).Inv

/-- R31: IPT, STACK_CAP and FONT are fixed for a run. -/
def Obligations.ParametersAreFixed : Prop :=
  ∀ s t : State, step s = .next t → t.params = s.params

/-! ### What instructions write -/

/-- R21, R22: an instruction changes a general register only if it names it as its destination, or the register is VF and
the instruction is one of the six that write VF as a flag. -/
def Obligations.RegisterWriters : Prop :=
  ∀ (i : Instr) (s t : State) (r : Nibble), exec i s = .next t → i.destination r = false →
    (r = vf → i.writesFlag = false) → t.reg r = s.reg r

/-- R56: an instruction changes a byte of memory only if it stores to it: Fx33 to I, I + 1, I + 2, Fx55 to I .. I + x. -/
def Obligations.MemoryWriters : Prop :=
  ∀ (i : Instr) (s t : State) (a : Nat), exec i s = .next t → ¬i.storesTo s a → t.memRead a = s.memRead a

/-- R24, R26, R27, R28, R29, R253, R259: which instructions change I, the stack, the timers, the pause state, the grid and
the draw counter; and no instruction changes the keys, the parameters, the Scheduler's place, the inputs or the outputs. -/
def Obligations.ControlStateWriters : Prop :=
  ∀ (i : Instr) (s t : State), exec i s = .next t →
    (t.i ≠ s.i → (∃ nnn, i = .ldI nnn) ∨ (∃ x, i = .addIVx x) ∨ ∃ x, i = .ldFVx x) ∧
    (t.stack ≠ s.stack → i = .ret ∨ ∃ nnn, i = .call nnn) ∧
    (t.dt ≠ s.dt → ∃ x, i = .ldDtVx x) ∧
    (t.st ≠ s.st → ∃ x, i = .ldStVx x) ∧
    (t.paused ≠ s.paused ∨ t.waitReg ≠ s.waitReg → ∃ x, i = .ldVxKey x) ∧
    (t.grid ≠ s.grid → i = .cls ∨ ∃ x y n, i = .drw x y n) ∧
    (t.draws ≠ s.draws → ∃ x kk, i = .rnd x kk) ∧
    t.keys = s.keys ∧ t.params = s.params ∧ t.stepsLeft = s.stepsLeft ∧ t.inputs = s.inputs ∧ t.outputs = s.outputs

/-- R29: paused is cleared at reset; set only by Fx0A; while it is set the Executor does nothing; cleared only by a key
press or by reset. -/
def Obligations.PauseTransitions : Prop :=
  State.reset.paused = false ∧
  (∀ s : State, s.paused = true → executorStep s = .next s) ∧
  ∀ s t : State, step s = .next t →
    (s.paused = false → t.paused = true → ∃ x, decodeOpcode s.fetchOpcode = .ok (.ldVxKey x) ∧ t.waitReg = x) ∧
    (s.paused = true → t.paused = false →
      (∃ c rest, s.inputs = .event (.keyPress c) :: rest) ∨ ∃ rest, s.inputs = .event .reset :: rest)

/-! ### Families 0x0 to 0x5 -/

/-- R101: `CLS` is exactly 0x00E0; every cell becomes 0 and nothing else changes. -/
def Obligations.ClsClearsGrid : Prop :=
  (∀ op : Opcode, decodeOpcode op = .ok .cls ↔ op = 0x00E0) ∧
  ∀ s : State, ∃ t, exec .cls s = .next t ∧ t = { s with grid := t.grid } ∧ ∀ X Y, t.grid.cell X Y = false

/-- R102: `RET` is exactly 0x00EE; it pops the top entry into pc; on an empty stack it raises StackUnderflow and changes
nothing else; and after a CALL that found room on the stack, wherever the subroutine's pc then is, it restores the state
the CALL began in, its pc the address after the CALL (90_conflicts C3, 95_test_vectors W6). -/
def Obligations.RetPopsOrUnderflows : Prop :=
  (∀ op : Opcode, decodeOpcode op = .ok .ret ↔ op = 0x00EE) ∧
  (∀ (s : State) (a : Addr) (rest : List Addr), s.stack = a :: rest →
    exec .ret s = .next { s with pc := a, stack := rest }) ∧
  (∀ s : State, s.stack = [] →
    ∃ f, exec .ret s = .next { s with fault := some f } ∧ f.kind = .stackUnderflow) ∧
  ∀ (nnn : Addr) (s : State), s.params.stackCap ≠ some s.stack.length →
    ∃ t, exec (.call nnn) s = .next t ∧ ∀ a : Addr, exec .ret { t with pc := a } = .next s

/-- R103, R104: any 0x0nnn except 0x00E0 and 0x00EE is `SYS`, and it does nothing; 0x1nnn jumps to nnn, and nothing but pc
changes. -/
def Obligations.SysDoesNothingJpJumps : Prop :=
  (∀ nnn : Addr, nnn ≠ 0x0E0 → nnn ≠ 0x0EE → decodeOpcode (encodeNNN 0x0 nnn) = .ok (.sys nnn)) ∧
  (∀ (nnn : Addr) (s : State), exec (.sys nnn) s = .next s) ∧
  ∀ (nnn : Addr) (s : State),
    decodeOpcode (encodeNNN 0x1 nnn) = .ok (.jp nnn) ∧ exec (.jp nnn) s = .next { s with pc := nnn }

/-- R105 (the cap by D6, the record by D7): 0x2nnn pushes the advanced pc and jumps to nnn, unless the stack holds exactly
STACK_CAP entries: then it records StackOverflow with its own address and opcode and changes nothing else. -/
def Obligations.CallPushesOrOverflows : Prop :=
  ∀ (nnn : Addr) (s : State),
    decodeOpcode (encodeNNN 0x2 nnn) = .ok (.call nnn) ∧
    (s.params.stackCap ≠ some s.stack.length →
      exec (.call nnn) s = .next { s with pc := nnn, stack := s.pc :: s.stack }) ∧
    (s.params.stackCap = some s.stack.length →
      exec (.call nnn) s = .next { s with fault := some ⟨.stackOverflow, s.pc - 2, encodeNNN 0x2 nnn⟩ })

/-- R106, R107: 0x3xkk skips if V[x] = kk, 0x4xkk if V[x] != kk; nothing but pc changes. -/
def Obligations.SkipsOnImmediate : Prop :=
  ∀ (x : Nibble) (kk : Byte) (s : State),
    decodeOpcode (encodeXKK 0x3 x kk) = .ok (.seImm x kk) ∧
    decodeOpcode (encodeXKK 0x4 x kk) = .ok (.sneImm x kk) ∧
    exec (.seImm x kk) s = .next { s with pc := if s.reg x = kk then s.pc + 2 else s.pc } ∧
    exec (.sneImm x kk) s = .next { s with pc := if s.reg x ≠ kk then s.pc + 2 else s.pc }

/-- R108, R160: 0x5xyN skips if V[x] = V[y], 0x9xyN if V[x] != V[y], for every N; nothing but pc changes. -/
def Obligations.SkipsOnRegisters : Prop :=
  ∀ (x y n : Nibble) (s : State),
    decodeOpcode (encodeXYN 0x5 x y n) = .ok (.seReg x y n) ∧
    decodeOpcode (encodeXYN 0x9 x y n) = .ok (.sneReg x y n) ∧
    exec (.seReg x y n) s = .next { s with pc := if s.reg x = s.reg y then s.pc + 2 else s.pc } ∧
    exec (.sneReg x y n) s = .next { s with pc := if s.reg x ≠ s.reg y then s.pc + 2 else s.pc }

/-! ### Families 0x6 to 0x8 -/

/-- R130, R131: 0x6xkk writes kk to V[x]; 0x7xkk writes (V[x] + kk) mod 256; no other register and nothing else changes, so
no flag is touched. -/
def Obligations.LoadAndAddImmediate : Prop :=
  ∀ (x : Nibble) (kk : Byte) (s : State),
    decodeOpcode (encodeXKK 0x6 x kk) = .ok (.ldImm x kk) ∧
    decodeOpcode (encodeXKK 0x7 x kk) = .ok (.addImm x kk) ∧
    (∃ t, exec (.ldImm x kk) s = .next t ∧ t = { s with v := t.v } ∧
      ∀ r, t.reg r = if r = x then kk else s.reg r) ∧
    ∃ t, exec (.addImm x kk) s = .next t ∧ t = { s with v := t.v } ∧
      ∀ r, (t.reg r).toNat = if r = x then ((s.reg x).toNat + kk.toNat) % 256 else (s.reg r).toNat

/-- R133 to R136: 0x8xy0 copies V[y] to V[x]; 0x8xy1, 0x8xy2, 0x8xy3 write the bitwise OR, AND, XOR of V[x] and V[y] to
V[x]; nothing else changes. -/
def Obligations.CopyAndLogic : Prop :=
  ∀ (x y : Nibble) (s : State),
    (decodeOpcode (encodeXYN 0x8 x y 0x0) = .ok (.ldReg x y) ∧
      ∃ t, exec (.ldReg x y) s = .next t ∧ t = { s with v := t.v } ∧
        ∀ r, t.reg r = if r = x then s.reg y else s.reg r) ∧
    (decodeOpcode (encodeXYN 0x8 x y 0x1) = .ok (.orReg x y) ∧
      ∃ t, exec (.orReg x y) s = .next t ∧ t = { s with v := t.v } ∧
        ∀ r, t.reg r = if r = x then s.reg x ||| s.reg y else s.reg r) ∧
    (decodeOpcode (encodeXYN 0x8 x y 0x2) = .ok (.andReg x y) ∧
      ∃ t, exec (.andReg x y) s = .next t ∧ t = { s with v := t.v } ∧
        ∀ r, t.reg r = if r = x then s.reg x &&& s.reg y else s.reg r) ∧
    (decodeOpcode (encodeXYN 0x8 x y 0x3) = .ok (.xorReg x y) ∧
      ∃ t, exec (.xorReg x y) s = .next t ∧ t = { s with v := t.v } ∧
        ∀ r, t.reg r = if r = x then s.reg x ^^^ s.reg y else s.reg r)

/-- R137: 0x8xy4 writes (V[x] + V[y]) mod 256 to V[x] and 1 to VF if the sum exceeds 255, else 0; with x = 0xF the sum
stays in VF; nothing else changes. -/
def Obligations.AddWithCarry : Prop :=
  ∀ (x y : Nibble) (s : State),
    decodeOpcode (encodeXYN 0x8 x y 0x4) = .ok (.addReg x y) ∧
    ∃ t, exec (.addReg x y) s = .next t ∧ t = { s with v := t.v } ∧
      ∀ r, (t.reg r).toNat =
        if r = x then ((s.reg x).toNat + (s.reg y).toNat) % 256
        else if r = vf then (if (s.reg x).toNat + (s.reg y).toNat > 255 then 1 else 0)
        else (s.reg r).toNat

/-- R138, R140: 0x8xy5 and 0x8xy7 write to VF 1 if the minuend is strictly greater than the subtrahend, else 0, and to V[x]
the difference mod 256. Where x or y is 0xF the difference reads the new flag: the sequential order is the spec's decision
D5. Nothing else changes. -/
def Obligations.SubtractWithNoBorrow : Prop :=
  ∀ (x y : Nibble) (s : State),
    (decodeOpcode (encodeXYN 0x8 x y 0x5) = .ok (.subReg x y) ∧
      ∃ t, exec (.subReg x y) s = .next t ∧ t = { s with v := t.v } ∧
        ∀ f : Byte, f = (if (s.reg x).toNat > (s.reg y).toNat then 1 else 0) →
          ∀ r, t.reg r =
            if r = x then (if x = vf then f else s.reg x) - (if y = vf then f else s.reg y)
            else if r = vf then f else s.reg r) ∧
    (decodeOpcode (encodeXYN 0x8 x y 0x7) = .ok (.subn x y) ∧
      ∃ t, exec (.subn x y) s = .next t ∧ t = { s with v := t.v } ∧
        ∀ f : Byte, f = (if (s.reg y).toNat > (s.reg x).toNat then 1 else 0) →
          ∀ r, t.reg r =
            if r = x then (if y = vf then f else s.reg y) - (if x = vf then f else s.reg x)
            else if r = vf then f else s.reg r)

/-- R139, R141: 0x8xy6 writes V[x] mod 2 to VF and V[x] / 2 to V[x]; 0x8xyE writes 0x80 or 0x00 to VF, as bit 7 of V[x] is
set or not, and 2 V[x] mod 256 to V[x]; with x = 0xF the new flag is shifted (D5), which leaves 0x00. V[y] and everything
else are unchanged. -/
def Obligations.ShiftsByOne : Prop :=
  ∀ (x y : Nibble) (s : State),
    (decodeOpcode (encodeXYN 0x8 x y 0x6) = .ok (.shr x y) ∧
      ∃ t, exec (.shr x y) s = .next t ∧ t = { s with v := t.v } ∧
        ∀ r, (t.reg r).toNat =
          if r = x then (if x = vf then 0 else (s.reg x).toNat / 2)
          else if r = vf then (s.reg x).toNat % 2 else (s.reg r).toNat) ∧
    (decodeOpcode (encodeXYN 0x8 x y 0xE) = .ok (.shl x y) ∧
      ∃ t, exec (.shl x y) s = .next t ∧ t = { s with v := t.v } ∧
        ∀ r, (t.reg r).toNat =
          if r = x then (if x = vf then 0 else 2 * (s.reg x).toNat % 256)
          else if r = vf then (if (s.reg x).toNat ≥ 128 then 128 else 0) else (s.reg r).toNat)

/-- R142 (by D5): the table of the final VF where VF is an operand, o its old value and v the other operand; the column of
x = 0xF, y != 0xF, the column of x != 0xF, y = 0xF with its destination, and x = y = 0xF. -/
def Obligations.FlagRegisterAsOperand : Prop :=
  ∀ (z : Nibble) (s : State), z ≠ vf → ∀ o v : Nat, o = (s.reg vf).toNat → v = (s.reg z).toNat →
    (∃ t, exec (.addReg vf z) s = .next t ∧ (t.reg vf).toNat = (o + v) % 256) ∧
    (∃ t, exec (.addReg z vf) s = .next t ∧ (t.reg vf).toNat = (if v + o > 255 then 1 else 0) ∧
      (t.reg z).toNat = (v + o) % 256) ∧
    (∃ t, exec (.addReg vf vf) s = .next t ∧ (t.reg vf).toNat = 2 * o % 256) ∧
    (∃ t, exec (.subReg vf z) s = .next t ∧ (t.reg vf).toNat = ((if o > v then 1 else 0) + (256 - v)) % 256) ∧
    (∃ t, exec (.subReg z vf) s = .next t ∧ (t.reg vf).toNat = (if v > o then 1 else 0) ∧
      (t.reg z).toNat = v - (if v > o then 1 else 0)) ∧
    (∃ t, exec (.subReg vf vf) s = .next t ∧ (t.reg vf).toNat = 0) ∧
    (∀ y, ∃ t, exec (.shr vf y) s = .next t ∧ (t.reg vf).toNat = 0) ∧
    (∃ t, exec (.shr z vf) s = .next t ∧ (t.reg vf).toNat = v % 2) ∧
    (∃ t, exec (.subn vf z) s = .next t ∧ (t.reg vf).toNat = v - (if v > o then 1 else 0)) ∧
    (∃ t, exec (.subn z vf) s = .next t ∧ (t.reg vf).toNat = (if o > v then 1 else 0) ∧
      (t.reg z).toNat = ((if o > v then 1 else 0) + (256 - v)) % 256) ∧
    (∃ t, exec (.subn vf vf) s = .next t ∧ (t.reg vf).toNat = 0) ∧
    (∀ y, ∃ t, exec (.shl vf y) s = .next t ∧ (t.reg vf).toNat = 0) ∧
    (∃ t, exec (.shl z vf) s = .next t ∧ (t.reg vf).toNat = (if v ≥ 128 then 128 else 0))

/-! ### Families 0x9 to 0xC -/

/-- R161, R206: 0xAnnn writes nnn, zero-extended, to I; 0xFx29 writes V[x] * 5 to I, with no mask on V[x]; nothing else
changes. -/
def Obligations.LoadIndex : Prop :=
  ∀ s : State,
    (∀ nnn : Addr, decodeOpcode (encodeNNN 0xA nnn) = .ok (.ldI nnn) ∧
      ∃ t, exec (.ldI nnn) s = .next t ∧ t = { s with i := t.i } ∧ t.i.toNat = nnn.toNat) ∧
    (∀ x : Nibble, decodeOpcode (encodeXKK 0xF x 0x29) = .ok (.ldFVx x) ∧
      ∃ t, exec (.ldFVx x) s = .next t ∧ t = { s with i := t.i } ∧ t.i.toNat = (s.reg x).toNat * 5)

/-- R162 (the wrap by D3): 0xBnnn jumps to (nnn + V0) mod 4096; nothing but pc changes. -/
def Obligations.JumpWithOffset : Prop :=
  ∀ (nnn : Addr) (s : State), decodeOpcode (encodeNNN 0xB nnn) = .ok (.jpV0 nnn) ∧
    ∃ t, exec (.jpV0 nnn) s = .next t ∧ t = { s with pc := t.pc } ∧
      t.pc.toNat = (nnn.toNat + (s.reg 0x0).toNat) % 4096

/-- R163, R259 (the byte free by D9): 0xCxkk takes one draw, whatever kk is, and writes the byte drawn, masked with kk, to
V[x]; nothing else changes. `Config.randomByte` is opaque, so this holds for every byte. -/
def Obligations.RandomByteIsMasked : Prop :=
  ∀ (x : Nibble) (kk : Byte) (s : State), decodeOpcode (encodeXKK 0xC x kk) = .ok (.rnd x kk) ∧
    ∃ t, exec (.rnd x kk) s = .next t ∧ t = { s with v := t.v, draws := s.draws + 1 } ∧
      ∀ r, t.reg r = if r = x then Config.randomByte s.draws &&& kk else s.reg r

/-! ### Families 0xD and 0xE -/

/-- R254: `set_pixel(x, y)` toggles the cell at (x mod 64, y mod 32), leaves every other cell, and answers whether the cell
became unset; DRW calls it with x at most 262 and y at most 269 (R180). -/
def Obligations.SetPixelToggles : Prop :=
  (∀ (g : Grid) (x y X Y : Nat), X < 64 → Y < 32 →
    ((g.setPixel x y).1.cell X Y = if X = x % 64 ∧ Y = y % 32 then !g.cell X Y else g.cell X Y) ∧
    (g.setPixel x y).2 = !(g.setPixel x y).1.cell x y) ∧
  ∀ (s : State) (x y n : Nibble), ∀ p ∈ s.spritePoints x y n, p.1 ≤ 262 ∧ p.2 ≤ 269

/-- R180, R181: 0xDxyn turns over exactly the cells its sprite covers, from the origin (V[x], V[y]) read before VF is
written, and writes 1 to VF if one of them was set, else 0; nothing else changes, and no memory is written. The clauses
hold for n = 0, which covers nothing. -/
def Obligations.DrawXorsSprite : Prop :=
  ∀ (x y n : Nibble) (s : State), decodeOpcode (encodeXYN 0xD x y n) = .ok (.drw x y n) ∧
    ∃ t, exec (.drw x y n) s = .next t ∧ t = { s with v := t.v, grid := t.grid } ∧
      (∀ X Y, X < 64 → Y < 32 →
        (s.SpriteCovers x y n X Y → t.grid.cell X Y = !s.grid.cell X Y) ∧
        (¬s.SpriteCovers x y n X Y → t.grid.cell X Y = s.grid.cell X Y)) ∧
      (∀ r, r ≠ vf → t.reg r = s.reg r) ∧
      ((∃ X Y, s.SpriteCovers x y n X Y ∧ s.grid.cell X Y = true) → t.reg vf = 1) ∧
      ((¬∃ X Y, s.SpriteCovers x y n X Y ∧ s.grid.cell X Y = true) → t.reg vf = 0)

/-- R180 (95_test_vectors W7): drawing the same sprite twice at the same origin restores the grid, and the second draw
writes 1 to VF exactly if the first draw set a cell: "sets VF=1 on the second draw wherever the first draw set pixels"
(log 17). x and y are not VF, which the first draw writes. -/
def Obligations.DrawTwiceRestoresGrid : Prop :=
  ∀ (x y n : Nibble) (s : State), x ≠ vf → y ≠ vf →
    ∃ t u, exec (.drw x y n) s = .next t ∧ exec (.drw x y n) t = .next u ∧ u.grid = s.grid ∧
      ((∃ X Y, s.SpriteCovers x y n X Y ∧ s.grid.cell X Y = false) → u.reg vf = 1) ∧
      ((¬∃ X Y, s.SpriteCovers x y n X Y ∧ s.grid.cell X Y = false) → u.reg vf = 0)

/-- R182, R183 (codes above 0xF by D10): 0xEx9E skips if the key whose code is V[x] is pressed, 0xExA1 if it is not; a
code above 0xF is no key and never pressed; nothing but pc changes. -/
def Obligations.SkipsOnKey : Prop :=
  ∀ (x : Nibble) (s : State),
    decodeOpcode (encodeXKK 0xE x 0x9E) = .ok (.skp x) ∧
    decodeOpcode (encodeXKK 0xE x 0xA1) = .ok (.sknp x) ∧
    (∀ h : (s.reg x).toNat < 16,
      exec (.skp x) s = .next { s with pc := if s.keys[(s.reg x).toNat] = true then s.pc + 2 else s.pc } ∧
      exec (.sknp x) s = .next { s with pc := if s.keys[(s.reg x).toNat] = true then s.pc else s.pc + 2 }) ∧
    (¬(s.reg x).toNat < 16 →
      exec (.skp x) s = .next s ∧ exec (.sknp x) s = .next { s with pc := s.pc + 2 })

/-! ### Family 0xF -/

/-- R201, R203, R204: 0xFx07 writes DT to V[x], 0xFx15 writes V[x] to DT, 0xFx18 writes V[x] to ST; nothing else changes. -/
def Obligations.TimerTransfers : Prop :=
  ∀ (x : Nibble) (s : State),
    (decodeOpcode (encodeXKK 0xF x 0x07) = .ok (.ldVxDt x) ∧
      ∃ t, exec (.ldVxDt x) s = .next t ∧ t = { s with v := t.v } ∧ ∀ r, t.reg r = if r = x then s.dt else s.reg r) ∧
    (decodeOpcode (encodeXKK 0xF x 0x15) = .ok (.ldDtVx x) ∧
      exec (.ldDtVx x) s = .next { s with dt := s.reg x }) ∧
    (decodeOpcode (encodeXKK 0xF x 0x18) = .ok (.ldStVx x) ∧
      exec (.ldStVx x) s = .next { s with st := s.reg x })

/-- R202: 0xFx0A enters the wait with target x, whatever keys are held; V[x] and everything else are unchanged. -/
def Obligations.KeyWaitBegins : Prop :=
  ∀ (x : Nibble) (s : State), decodeOpcode (encodeXKK 0xF x 0x0A) = .ok (.ldVxKey x) ∧
    exec (.ldVxKey x) s = .next { s with paused := true, waitReg := x }

/-- R205 (the width of I by D2, no flag by D12): 0xFx1E writes (I + V[x]) mod 65536 to I; nothing else changes. -/
def Obligations.AddToIndex : Prop :=
  ∀ (x : Nibble) (s : State), decodeOpcode (encodeXKK 0xF x 0x1E) = .ok (.addIVx x) ∧
    ∃ t, exec (.addIVx x) s = .next t ∧ t = { s with i := t.i } ∧
      t.i.toNat = (s.i.toNat + (s.reg x).toNat) % 65536

/-- R207: 0xFx33 stores the hundreds, tens and ones of V[x] at I, I + 1, I + 2, each address mod 4096; every other byte
and everything else are unchanged. -/
def Obligations.DecimalDigitsAreStored : Prop :=
  ∀ (x : Nibble) (s : State), decodeOpcode (encodeXKK 0xF x 0x33) = .ok (.ldBVx x) ∧
    ∃ t, exec (.ldBVx x) s = .next t ∧ t = { s with mem := t.mem } ∧
      (t.memRead (s.indexAddr 0)).toNat = (s.reg x).toNat / 100 ∧
      (t.memRead (s.indexAddr 1)).toNat = (s.reg x).toNat / 10 % 10 ∧
      (t.memRead (s.indexAddr 2)).toNat = (s.reg x).toNat % 10 ∧
      ∀ a, (∀ k, k < 3 → wrapAddr a ≠ wrapAddr (s.indexAddr k)) → t.memRead a = s.memRead a

/-- R208 (I unchanged by D11): 0xFx55 stores V0 to Vx at I .. I + x, each address mod 4096; every other byte and everything
else are unchanged. -/
def Obligations.RegistersAreStored : Prop :=
  ∀ (x : Nibble) (s : State), decodeOpcode (encodeXKK 0xF x 0x55) = .ok (.storeRegs x) ∧
    ∃ t, exec (.storeRegs x) s = .next t ∧ t = { s with mem := t.mem } ∧
      (∀ r : Nibble, r.toNat ≤ x.toNat → t.memRead (s.indexAddr r.toNat) = s.reg r) ∧
      ∀ a, (∀ k, k ≤ x.toNat → wrapAddr a ≠ wrapAddr (s.indexAddr k)) → t.memRead a = s.memRead a

/-- R209 (I unchanged by D11): 0xFx65 loads V0 to Vx from I .. I + x, each address mod 4096; the registers above x and
everything else are unchanged. -/
def Obligations.RegistersAreLoaded : Prop :=
  ∀ (x : Nibble) (s : State), decodeOpcode (encodeXKK 0xF x 0x65) = .ok (.loadRegs x) ∧
    ∃ t, exec (.loadRegs x) s = .next t ∧ t = { s with v := t.v } ∧
      ∀ r : Nibble, t.reg r = if r.toNat ≤ x.toNat then s.memRead ((s.i.toNat + r.toNat) % 4096) else s.reg r

/-- R60 (D23): a store is seen by the next fetch: after 0xFx55 with x at least 1 and I at pc, the fetch reads V0 and V1. -/
def Obligations.StoreIsSeenByNextFetch : Prop :=
  ∀ (x : Nibble) (s : State), 1 ≤ x.toNat → wrapAddr (s.indexAddr 0) = s.pc.toNat →
    ∃ t, exec (.storeRegs x) s = .next t ∧ t.fetchOpcode = opcodeOfBytes (s.reg 0x0) (s.reg 0x1)

/-- R25: bits 15:12 of I are never observable: two states that differ only there go to states that differ only there, by
every move, or are refused alike. -/
def Obligations.HighBitsOfIndexAreUnobservable : Prop :=
  ∀ s s' : State, s.SameButHighI s' → Result.SameButHighI (step s) (step s')

/-! ### The wait, the Scheduler and the timers -/

/-- R241: a key press sets the key's bit and, in the wait, writes the code to V[wait_reg] and ends the wait; a release
clears the bit and ends no wait; nothing else changes. -/
def Obligations.KeyEventsAndHandOff : Prop :=
  ∀ (s : State) (c : Byte) (rest : List Input), c.toNat < 16 →
    (s.inputs = .event (.keyPress c) :: rest →
      ∃ t, step s = .next t ∧ t = { s with v := t.v, keys := t.keys, paused := false, inputs := rest } ∧
        (∀ c', t.keys.isPressed c' = if c' = c then true else s.keys.isPressed c') ∧
        ∀ r, t.reg r = if s.paused = true ∧ r = s.waitReg then c else s.reg r) ∧
    (s.inputs = .event (.keyRelease c) :: rest →
      ∃ t, step s = .next t ∧ t = { s with keys := t.keys, inputs := rest } ∧
        ∀ c', t.keys.isPressed c' = if c' = c then false else s.keys.isPressed c')

/-- D20, D26, R280: the outside events that the spec gives no meaning are refused by name: a key code above 0xF, an image
of more than 3584 bytes, a reset or a load inside a tick. -/
def Obligations.MeaninglessEventsAreRefused : Prop :=
  ∀ (s : State) (rest : List Input),
    (∀ c : Byte, ¬c.toNat < 16 →
      (s.inputs = .event (.keyPress c) :: rest → step s = .refused (.invalidKeyCode c)) ∧
      (s.inputs = .event (.keyRelease c) :: rest → step s = .refused (.invalidKeyCode c))) ∧
    (∀ bytes, s.inputs = .event (.loadProgram bytes) :: rest → s.betweenTicks = true → 3584 < bytes.length →
      step s = .refused (.programTooLong bytes.length)) ∧
    (s.betweenTicks = false →
      (s.inputs = .event .reset :: rest → step s = .refused .commandInsideTick) ∧
      (s.inputs = .event .loadFont :: rest → step s = .refused .commandInsideTick) ∧
      (∀ bytes, s.inputs = .event (.loadProgram bytes) :: rest → step s = .refused .commandInsideTick))

/-- R242, R246, R264: while the machine waits and no event comes, any number of steps changes only the Scheduler's place
and the record of its calls: registers, pc, memory, stack, timers, grid and keys stay, and the wait goes on. -/
def Obligations.WaitHoldsUntilKeyPress : Prop :=
  ∀ (k : Nat) (s : State), s.inputs = [] → s.fault = none → s.paused = true →
    ∃ t, Host.Core.run Sys2Proof.core k s = .next t ∧ t = { s with stepsLeft := t.stepsLeft, outputs := t.outputs }

/-- R245: the machine's own steps, taken from the start of a tick with no outside event, are exactly the Scheduler's
`tick()`: IPT of them, or one where IPT is 0 (D24). -/
def Obligations.StepsMakeUpTheTick : Prop :=
  ∀ s : State, s.inputs = [] → s.stepsLeft = s.params.ipt →
    Host.Core.run Sys2Proof.core (max 1 s.params.ipt) s = tick s

/-- R246, R247, R248: a tick not ended by a fatal error lowers DT and ST by 1, never below 0, unless the machine is paused
after the last step; then starts the tone at 440 Hz if the ST so left is above 0, else stops it; then presents the grid,
once; nothing else changes after the steps. -/
def Obligations.EndOfTick : Prop :=
  ∀ s t : State, s.fault = none → runQuota s.params.ipt s = .next t → t.fault = none →
    ∃ u, tick s = .next u ∧ u = { t with dt := u.dt, st := u.st, outputs := u.outputs } ∧
      u.dt.toNat = (if t.paused = true then t.dt.toNat else t.dt.toNat - 1) ∧
      u.st.toNat = (if t.paused = true then t.st.toNat else t.st.toNat - 1) ∧
      u.outputs = .present :: (if u.st.toNat > 0 then .toneStart 440 else .toneStop) :: t.outputs

/-- R245, D15: in the machine's steps, the last step of a tick is followed at once by the end of the tick, and any earlier
step only counts down. -/
def Obligations.LastStepEndsTick : Prop :=
  ∀ s t : State, s.Ready → executorStep s = .next t → t.fault = none →
    (s.stepsLeft = 1 → step s = .next { t.finishTick with stepsLeft := s.params.ipt }) ∧
    (1 < s.stepsLeft → step s = .next { t with stepsLeft := s.stepsLeft - 1 })

/-- R28, R249: no instruction reads ST: changing ST before an instruction changes nothing after it but ST, which Fx18
overwrites. -/
def Obligations.SoundTimerIsNotRead : Prop :=
  ∀ (i : Instr) (s t : State) (b : Byte), exec i s = .next t →
    (∀ x, i ≠ .ldStVx x) → exec i { s with st := b } = .next { t with st := b }

/-! ### Reset and loading -/

/-- R34, R280: what reset leaves in the block, for any parameters, grid and key state: memory, registers, I and timers 0,
pc 0x200, the stack empty, not paused, no fatal error (wait_reg and the record by D21). State.reset is this with the
default parameters; its grid is the model's choice (D13, log 6), its keys released (D14). -/
def Obligations.ResetValues : Prop :=
  ∀ params grid keys, ∀ s : State, s = State.afterReset params grid keys →
    (∀ a, s.memRead a = 0x00) ∧ (∀ r, s.reg r = 0x00) ∧ s.pc = 0x200 ∧ s.i = 0x0000 ∧ s.stack = [] ∧
    s.dt = 0x00 ∧ s.st = 0x00 ∧ s.paused = false ∧ s.waitReg = 0x0 ∧ s.fault = none ∧
    s.grid = grid ∧ s.keys = keys ∧ s.params = params ∧
    State.reset = State.afterReset Config.Params.default Grid.clear Keys.released

/-- R280, R281 (D13, D14, D21): the host's reset between ticks, also from the halted state, gives the block the values that
reset gives it and leaves the grid, the keys, the parameters and the record of outputs. -/
def Obligations.ResetCommand : Prop :=
  ∀ (s : State) (rest : List Input), s.inputs = .event .reset :: rest →
    s.fault ≠ none ∨ s.stepsLeft = s.params.ipt →
    step s = .next { State.afterReset s.params s.grid s.keys with inputs := rest, outputs := s.outputs, draws := s.draws }

/-- R282 (FONT by D16): load_font between ticks writes row r of glyph d at 5 d + r, for the sixteen glyphs' five rows, and
changes nothing else. -/
def Obligations.FontLoad : Prop :=
  ∀ (s : State) (rest : List Input), s.inputs = .event .loadFont :: rest → s.betweenTicks = true →
    ∃ t, step s = .next t ∧ t = { s with mem := t.mem, inputs := rest } ∧
      (∀ (d r : Nat) (hd : d < 16) (hr : r < 5), t.memRead (5 * d + r) = s.params.font[d][r]) ∧
      ∀ a, 80 ≤ wrapAddr a → t.memRead a = s.memRead a

/-- R284 (the limit by D20): load_program between ticks of at most 3584 bytes writes byte k at 0x200 + k and changes
nothing else. -/
def Obligations.ProgramLoad : Prop :=
  ∀ (s : State) (bytes : List Byte) (rest : List Input), s.inputs = .event (.loadProgram bytes) :: rest →
    s.betweenTicks = true → bytes.length ≤ 3584 →
    ∃ t, step s = .next t ∧ t = { s with mem := t.mem, inputs := rest } ∧
      (∀ (k : Nat) (h : k < bytes.length), t.memRead (0x200 + k) = bytes[k]) ∧
      ∀ a, (wrapAddr a < 0x200 ∨ 0x200 + bytes.length ≤ wrapAddr a) → t.memRead a = s.memRead a

/-- R285 (D22): reset, load_font and load_program, in any state between two ticks, lead to the launch state of that image;
so do load_font and load_program from the core's own reset state, with the default parameters (log 6 for its grid). -/
def Obligations.BootSequence : Prop :=
  ∀ (bytes : List Byte) (rest : List Input), bytes.length ≤ 3584 →
    (∀ s : State, s.betweenTicks = true → s.inputs = .event .reset :: (bootEvents bytes ++ rest) →
      Host.Core.run Sys2Proof.core 3 s = .next { State.launch s.params s.grid s.keys bytes with
        inputs := rest, outputs := s.outputs, draws := s.draws }) ∧
    Host.Core.run Sys2Proof.core 2 { Sys2Proof.core.reset with inputs := bootEvents bytes ++ rest } =
      .next { State.launch Config.Params.default Grid.clear Keys.released bytes with inputs := rest }

/-- R285 (D22, FONT by D16): the launch state holds the font at 0x000 to 0x04F, the image from 0x200 and zero elsewhere,
and every register as after reset; where IPT is not 0 its next move is a step, which fetches the bytes at 0x200 and 0x201. -/
def Obligations.LaunchStateValues : Prop :=
  ∀ params grid keys (bytes : List Byte), bytes.length ≤ 3584 → ∀ s : State, s = State.launch params grid keys bytes →
    s = { State.afterReset params grid keys with mem := s.mem } ∧
    (∀ (d r : Nat) (hd : d < 16) (hr : r < 5), s.memRead (5 * d + r) = params.font[d][r]) ∧
    (∀ (k : Nat) (h : k < bytes.length), s.memRead (0x200 + k) = bytes[k]) ∧
    (∀ a, 80 ≤ wrapAddr a → (wrapAddr a < 0x200 ∨ 0x200 + bytes.length ≤ wrapAddr a) → s.memRead a = 0x00) ∧
    (0 < params.ipt → s.Ready) ∧
    s.fetchOpcode = opcodeOfBytes (s.memRead 0x200) (s.memRead 0x201)
end

