-- ==== Sys2Proof/Laws/State.lean ====
section
/-! SUPPORT. For each update of the state, one lemma per field: what the update leaves of it. They are the project's
simp set, so that no later proof unfolds a record update. -/

namespace Sys2Proof.Machine

variable (s : State)

/-! ### `memWrite` -/
@[simp] theorem State.memWrite_mem (a : Nat) (b : Byte) : (s.memWrite a b).mem = s.mem.write (wrapAddr a) b := rfl
@[simp] theorem State.memWrite_v (a : Nat) (b : Byte) : (s.memWrite a b).v = s.v := rfl
@[simp] theorem State.memWrite_pc (a : Nat) (b : Byte) : (s.memWrite a b).pc = s.pc := rfl
@[simp] theorem State.memWrite_i (a : Nat) (b : Byte) : (s.memWrite a b).i = s.i := rfl
@[simp] theorem State.memWrite_stack (a : Nat) (b : Byte) : (s.memWrite a b).stack = s.stack := rfl
@[simp] theorem State.memWrite_dt (a : Nat) (b : Byte) : (s.memWrite a b).dt = s.dt := rfl
@[simp] theorem State.memWrite_st (a : Nat) (b : Byte) : (s.memWrite a b).st = s.st := rfl
@[simp] theorem State.memWrite_paused (a : Nat) (b : Byte) : (s.memWrite a b).paused = s.paused := rfl
@[simp] theorem State.memWrite_waitReg (a : Nat) (b : Byte) : (s.memWrite a b).waitReg = s.waitReg := rfl
@[simp] theorem State.memWrite_fault (a : Nat) (b : Byte) : (s.memWrite a b).fault = s.fault := rfl
@[simp] theorem State.memWrite_grid (a : Nat) (b : Byte) : (s.memWrite a b).grid = s.grid := rfl
@[simp] theorem State.memWrite_keys (a : Nat) (b : Byte) : (s.memWrite a b).keys = s.keys := rfl
@[simp] theorem State.memWrite_params (a : Nat) (b : Byte) : (s.memWrite a b).params = s.params := rfl
@[simp] theorem State.memWrite_stepsLeft (a : Nat) (b : Byte) : (s.memWrite a b).stepsLeft = s.stepsLeft := rfl
@[simp] theorem State.memWrite_inputs (a : Nat) (b : Byte) : (s.memWrite a b).inputs = s.inputs := rfl
@[simp] theorem State.memWrite_outputs (a : Nat) (b : Byte) : (s.memWrite a b).outputs = s.outputs := rfl
@[simp] theorem State.memWrite_draws (a : Nat) (b : Byte) : (s.memWrite a b).draws = s.draws := rfl
@[simp] theorem State.memWrite_reg (a : Nat) (b : Byte) (r : Nibble) : (s.memWrite a b).reg r = s.reg r := rfl

/-! ### `setReg` -/
@[simp] theorem State.setReg_mem (x : Nibble) (b : Byte) : (s.setReg x b).mem = s.mem := rfl
@[simp] theorem State.setReg_pc (x : Nibble) (b : Byte) : (s.setReg x b).pc = s.pc := rfl
@[simp] theorem State.setReg_i (x : Nibble) (b : Byte) : (s.setReg x b).i = s.i := rfl
@[simp] theorem State.setReg_stack (x : Nibble) (b : Byte) : (s.setReg x b).stack = s.stack := rfl
@[simp] theorem State.setReg_dt (x : Nibble) (b : Byte) : (s.setReg x b).dt = s.dt := rfl
@[simp] theorem State.setReg_st (x : Nibble) (b : Byte) : (s.setReg x b).st = s.st := rfl
@[simp] theorem State.setReg_paused (x : Nibble) (b : Byte) : (s.setReg x b).paused = s.paused := rfl
@[simp] theorem State.setReg_waitReg (x : Nibble) (b : Byte) : (s.setReg x b).waitReg = s.waitReg := rfl
@[simp] theorem State.setReg_fault (x : Nibble) (b : Byte) : (s.setReg x b).fault = s.fault := rfl
@[simp] theorem State.setReg_grid (x : Nibble) (b : Byte) : (s.setReg x b).grid = s.grid := rfl
@[simp] theorem State.setReg_keys (x : Nibble) (b : Byte) : (s.setReg x b).keys = s.keys := rfl
@[simp] theorem State.setReg_params (x : Nibble) (b : Byte) : (s.setReg x b).params = s.params := rfl
@[simp] theorem State.setReg_stepsLeft (x : Nibble) (b : Byte) : (s.setReg x b).stepsLeft = s.stepsLeft := rfl
@[simp] theorem State.setReg_inputs (x : Nibble) (b : Byte) : (s.setReg x b).inputs = s.inputs := rfl
@[simp] theorem State.setReg_outputs (x : Nibble) (b : Byte) : (s.setReg x b).outputs = s.outputs := rfl
@[simp] theorem State.setReg_draws (x : Nibble) (b : Byte) : (s.setReg x b).draws = s.draws := rfl
@[simp] theorem State.setReg_memRead (x : Nibble) (b : Byte) (a : Nat) : (s.setReg x b).memRead a = s.memRead a := rfl

/-! ### `setPc` -/
@[simp] theorem State.setPc_mem (t : Nat) : (s.setPc t).mem = s.mem := rfl
@[simp] theorem State.setPc_v (t : Nat) : (s.setPc t).v = s.v := rfl
@[simp] theorem State.setPc_pc (t : Nat) : (s.setPc t).pc = BitVec.ofNat 12 t := rfl
@[simp] theorem State.setPc_i (t : Nat) : (s.setPc t).i = s.i := rfl
@[simp] theorem State.setPc_stack (t : Nat) : (s.setPc t).stack = s.stack := rfl
@[simp] theorem State.setPc_dt (t : Nat) : (s.setPc t).dt = s.dt := rfl
@[simp] theorem State.setPc_st (t : Nat) : (s.setPc t).st = s.st := rfl
@[simp] theorem State.setPc_paused (t : Nat) : (s.setPc t).paused = s.paused := rfl
@[simp] theorem State.setPc_waitReg (t : Nat) : (s.setPc t).waitReg = s.waitReg := rfl
@[simp] theorem State.setPc_fault (t : Nat) : (s.setPc t).fault = s.fault := rfl
@[simp] theorem State.setPc_grid (t : Nat) : (s.setPc t).grid = s.grid := rfl
@[simp] theorem State.setPc_keys (t : Nat) : (s.setPc t).keys = s.keys := rfl
@[simp] theorem State.setPc_params (t : Nat) : (s.setPc t).params = s.params := rfl
@[simp] theorem State.setPc_stepsLeft (t : Nat) : (s.setPc t).stepsLeft = s.stepsLeft := rfl
@[simp] theorem State.setPc_inputs (t : Nat) : (s.setPc t).inputs = s.inputs := rfl
@[simp] theorem State.setPc_outputs (t : Nat) : (s.setPc t).outputs = s.outputs := rfl
@[simp] theorem State.setPc_draws (t : Nat) : (s.setPc t).draws = s.draws := rfl
@[simp] theorem State.setPc_reg (t : Nat) (r : Nibble) : (s.setPc t).reg r = s.reg r := rfl
@[simp] theorem State.setPc_memRead (t : Nat) (a : Nat) : (s.setPc t).memRead a = s.memRead a := rfl

/-! ### `setI` -/
@[simp] theorem State.setI_mem (t : Nat) : (s.setI t).mem = s.mem := rfl
@[simp] theorem State.setI_v (t : Nat) : (s.setI t).v = s.v := rfl
@[simp] theorem State.setI_pc (t : Nat) : (s.setI t).pc = s.pc := rfl
@[simp] theorem State.setI_i (t : Nat) : (s.setI t).i = BitVec.ofNat 16 t := rfl
@[simp] theorem State.setI_stack (t : Nat) : (s.setI t).stack = s.stack := rfl
@[simp] theorem State.setI_dt (t : Nat) : (s.setI t).dt = s.dt := rfl
@[simp] theorem State.setI_st (t : Nat) : (s.setI t).st = s.st := rfl
@[simp] theorem State.setI_paused (t : Nat) : (s.setI t).paused = s.paused := rfl
@[simp] theorem State.setI_waitReg (t : Nat) : (s.setI t).waitReg = s.waitReg := rfl
@[simp] theorem State.setI_fault (t : Nat) : (s.setI t).fault = s.fault := rfl
@[simp] theorem State.setI_grid (t : Nat) : (s.setI t).grid = s.grid := rfl
@[simp] theorem State.setI_keys (t : Nat) : (s.setI t).keys = s.keys := rfl
@[simp] theorem State.setI_params (t : Nat) : (s.setI t).params = s.params := rfl
@[simp] theorem State.setI_stepsLeft (t : Nat) : (s.setI t).stepsLeft = s.stepsLeft := rfl
@[simp] theorem State.setI_inputs (t : Nat) : (s.setI t).inputs = s.inputs := rfl
@[simp] theorem State.setI_outputs (t : Nat) : (s.setI t).outputs = s.outputs := rfl
@[simp] theorem State.setI_draws (t : Nat) : (s.setI t).draws = s.draws := rfl
@[simp] theorem State.setI_reg (t : Nat) (r : Nibble) : (s.setI t).reg r = s.reg r := rfl
@[simp] theorem State.setI_memRead (t : Nat) (a : Nat) : (s.setI t).memRead a = s.memRead a := rfl

/-! ### `advance` -/
@[simp] theorem State.advance_mem : s.advance.mem = s.mem := rfl
@[simp] theorem State.advance_v : s.advance.v = s.v := rfl
@[simp] theorem State.advance_pc : s.advance.pc = s.pc + 2 := by
  simp only [State.advance, State.setPc]
  exact BitVec.eq_of_toNat_eq (by simp)
@[simp] theorem State.advance_i : s.advance.i = s.i := rfl
@[simp] theorem State.advance_stack : s.advance.stack = s.stack := rfl
@[simp] theorem State.advance_dt : s.advance.dt = s.dt := rfl
@[simp] theorem State.advance_st : s.advance.st = s.st := rfl
@[simp] theorem State.advance_paused : s.advance.paused = s.paused := rfl
@[simp] theorem State.advance_waitReg : s.advance.waitReg = s.waitReg := rfl
@[simp] theorem State.advance_fault : s.advance.fault = s.fault := rfl
@[simp] theorem State.advance_grid : s.advance.grid = s.grid := rfl
@[simp] theorem State.advance_keys : s.advance.keys = s.keys := rfl
@[simp] theorem State.advance_params : s.advance.params = s.params := rfl
@[simp] theorem State.advance_stepsLeft : s.advance.stepsLeft = s.stepsLeft := rfl
@[simp] theorem State.advance_inputs : s.advance.inputs = s.inputs := rfl
@[simp] theorem State.advance_outputs : s.advance.outputs = s.outputs := rfl
@[simp] theorem State.advance_draws : s.advance.draws = s.draws := rfl
@[simp] theorem State.advance_reg (r : Nibble) : s.advance.reg r = s.reg r := rfl
@[simp] theorem State.advance_memRead (a : Nat) : s.advance.memRead a = s.memRead a := rfl

/-! ### `skipIf` -/
@[simp] theorem State.skipIf_mem (c : Bool) : (s.skipIf c).mem = s.mem := by cases c <;> rfl
@[simp] theorem State.skipIf_v (c : Bool) : (s.skipIf c).v = s.v := by cases c <;> rfl
@[simp] theorem State.skipIf_i (c : Bool) : (s.skipIf c).i = s.i := by cases c <;> rfl
@[simp] theorem State.skipIf_stack (c : Bool) : (s.skipIf c).stack = s.stack := by cases c <;> rfl
@[simp] theorem State.skipIf_dt (c : Bool) : (s.skipIf c).dt = s.dt := by cases c <;> rfl
@[simp] theorem State.skipIf_st (c : Bool) : (s.skipIf c).st = s.st := by cases c <;> rfl
@[simp] theorem State.skipIf_paused (c : Bool) : (s.skipIf c).paused = s.paused := by cases c <;> rfl
@[simp] theorem State.skipIf_waitReg (c : Bool) : (s.skipIf c).waitReg = s.waitReg := by cases c <;> rfl
@[simp] theorem State.skipIf_fault (c : Bool) : (s.skipIf c).fault = s.fault := by cases c <;> rfl
@[simp] theorem State.skipIf_grid (c : Bool) : (s.skipIf c).grid = s.grid := by cases c <;> rfl
@[simp] theorem State.skipIf_keys (c : Bool) : (s.skipIf c).keys = s.keys := by cases c <;> rfl
@[simp] theorem State.skipIf_params (c : Bool) : (s.skipIf c).params = s.params := by cases c <;> rfl
@[simp] theorem State.skipIf_stepsLeft (c : Bool) : (s.skipIf c).stepsLeft = s.stepsLeft := by cases c <;> rfl
@[simp] theorem State.skipIf_inputs (c : Bool) : (s.skipIf c).inputs = s.inputs := by cases c <;> rfl
@[simp] theorem State.skipIf_outputs (c : Bool) : (s.skipIf c).outputs = s.outputs := by cases c <;> rfl
@[simp] theorem State.skipIf_draws (c : Bool) : (s.skipIf c).draws = s.draws := by cases c <;> rfl
@[simp] theorem State.skipIf_reg (c : Bool) (r : Nibble) : (s.skipIf c).reg r = s.reg r := by simp only [State.reg, State.skipIf_v]
@[simp] theorem State.skipIf_memRead (c : Bool) (a : Nat) : (s.skipIf c).memRead a = s.memRead a := by simp only [State.memRead, State.skipIf_mem]

/-! ### `push` -/
@[simp] theorem State.push_mem (a : Addr) : (s.push a).mem = s.mem := rfl
@[simp] theorem State.push_v (a : Addr) : (s.push a).v = s.v := rfl
@[simp] theorem State.push_pc (a : Addr) : (s.push a).pc = s.pc := rfl
@[simp] theorem State.push_i (a : Addr) : (s.push a).i = s.i := rfl
@[simp] theorem State.push_stack (a : Addr) : (s.push a).stack = a :: s.stack := rfl
@[simp] theorem State.push_dt (a : Addr) : (s.push a).dt = s.dt := rfl
@[simp] theorem State.push_st (a : Addr) : (s.push a).st = s.st := rfl
@[simp] theorem State.push_paused (a : Addr) : (s.push a).paused = s.paused := rfl
@[simp] theorem State.push_waitReg (a : Addr) : (s.push a).waitReg = s.waitReg := rfl
@[simp] theorem State.push_fault (a : Addr) : (s.push a).fault = s.fault := rfl
@[simp] theorem State.push_grid (a : Addr) : (s.push a).grid = s.grid := rfl
@[simp] theorem State.push_keys (a : Addr) : (s.push a).keys = s.keys := rfl
@[simp] theorem State.push_params (a : Addr) : (s.push a).params = s.params := rfl
@[simp] theorem State.push_stepsLeft (a : Addr) : (s.push a).stepsLeft = s.stepsLeft := rfl
@[simp] theorem State.push_inputs (a : Addr) : (s.push a).inputs = s.inputs := rfl
@[simp] theorem State.push_outputs (a : Addr) : (s.push a).outputs = s.outputs := rfl
@[simp] theorem State.push_draws (a : Addr) : (s.push a).draws = s.draws := rfl
@[simp] theorem State.push_reg (a : Addr) (r : Nibble) : (s.push a).reg r = s.reg r := rfl
@[simp] theorem State.push_memRead (a : Addr) (k : Nat) : (s.push a).memRead k = s.memRead k := rfl

/-! ### `raise` -/
@[simp] theorem State.raise_mem (k : FaultKind) (op : Opcode) : (s.raise k op).mem = s.mem := rfl
@[simp] theorem State.raise_v (k : FaultKind) (op : Opcode) : (s.raise k op).v = s.v := rfl
@[simp] theorem State.raise_pc (k : FaultKind) (op : Opcode) : (s.raise k op).pc = s.pc := rfl
@[simp] theorem State.raise_i (k : FaultKind) (op : Opcode) : (s.raise k op).i = s.i := rfl
@[simp] theorem State.raise_stack (k : FaultKind) (op : Opcode) : (s.raise k op).stack = s.stack := rfl
@[simp] theorem State.raise_dt (k : FaultKind) (op : Opcode) : (s.raise k op).dt = s.dt := rfl
@[simp] theorem State.raise_st (k : FaultKind) (op : Opcode) : (s.raise k op).st = s.st := rfl
@[simp] theorem State.raise_paused (k : FaultKind) (op : Opcode) : (s.raise k op).paused = s.paused := rfl
@[simp] theorem State.raise_waitReg (k : FaultKind) (op : Opcode) : (s.raise k op).waitReg = s.waitReg := rfl
@[simp] theorem State.raise_fault (k : FaultKind) (op : Opcode) : (s.raise k op).fault = some ⟨k, s.pc - 2, op⟩ := rfl
@[simp] theorem State.raise_grid (k : FaultKind) (op : Opcode) : (s.raise k op).grid = s.grid := rfl
@[simp] theorem State.raise_keys (k : FaultKind) (op : Opcode) : (s.raise k op).keys = s.keys := rfl
@[simp] theorem State.raise_params (k : FaultKind) (op : Opcode) : (s.raise k op).params = s.params := rfl
@[simp] theorem State.raise_stepsLeft (k : FaultKind) (op : Opcode) : (s.raise k op).stepsLeft = s.stepsLeft := rfl
@[simp] theorem State.raise_inputs (k : FaultKind) (op : Opcode) : (s.raise k op).inputs = s.inputs := rfl
@[simp] theorem State.raise_outputs (k : FaultKind) (op : Opcode) : (s.raise k op).outputs = s.outputs := rfl
@[simp] theorem State.raise_draws (k : FaultKind) (op : Opcode) : (s.raise k op).draws = s.draws := rfl
@[simp] theorem State.raise_reg (k : FaultKind) (op : Opcode) (r : Nibble) : (s.raise k op).reg r = s.reg r := rfl
@[simp] theorem State.raise_memRead (k : FaultKind) (op : Opcode) (a : Nat) : (s.raise k op).memRead a = s.memRead a := rfl

/-! ### `clearDisplay` -/
@[simp] theorem State.clearDisplay_mem : s.clearDisplay.mem = s.mem := rfl
@[simp] theorem State.clearDisplay_v : s.clearDisplay.v = s.v := rfl
@[simp] theorem State.clearDisplay_pc : s.clearDisplay.pc = s.pc := rfl
@[simp] theorem State.clearDisplay_i : s.clearDisplay.i = s.i := rfl
@[simp] theorem State.clearDisplay_stack : s.clearDisplay.stack = s.stack := rfl
@[simp] theorem State.clearDisplay_dt : s.clearDisplay.dt = s.dt := rfl
@[simp] theorem State.clearDisplay_st : s.clearDisplay.st = s.st := rfl
@[simp] theorem State.clearDisplay_paused : s.clearDisplay.paused = s.paused := rfl
@[simp] theorem State.clearDisplay_waitReg : s.clearDisplay.waitReg = s.waitReg := rfl
@[simp] theorem State.clearDisplay_fault : s.clearDisplay.fault = s.fault := rfl
@[simp] theorem State.clearDisplay_grid : s.clearDisplay.grid = Grid.clear := rfl
@[simp] theorem State.clearDisplay_keys : s.clearDisplay.keys = s.keys := rfl
@[simp] theorem State.clearDisplay_params : s.clearDisplay.params = s.params := rfl
@[simp] theorem State.clearDisplay_stepsLeft : s.clearDisplay.stepsLeft = s.stepsLeft := rfl
@[simp] theorem State.clearDisplay_inputs : s.clearDisplay.inputs = s.inputs := rfl
@[simp] theorem State.clearDisplay_outputs : s.clearDisplay.outputs = s.outputs := rfl
@[simp] theorem State.clearDisplay_draws : s.clearDisplay.draws = s.draws := rfl
@[simp] theorem State.clearDisplay_reg (r : Nibble) : s.clearDisplay.reg r = s.reg r := rfl
@[simp] theorem State.clearDisplay_memRead (a : Nat) : s.clearDisplay.memRead a = s.memRead a := rfl

/-! ### `beginWait` -/
@[simp] theorem State.beginWait_mem (x : Nibble) : (s.beginWait x).mem = s.mem := rfl
@[simp] theorem State.beginWait_v (x : Nibble) : (s.beginWait x).v = s.v := rfl
@[simp] theorem State.beginWait_pc (x : Nibble) : (s.beginWait x).pc = s.pc := rfl
@[simp] theorem State.beginWait_i (x : Nibble) : (s.beginWait x).i = s.i := rfl
@[simp] theorem State.beginWait_stack (x : Nibble) : (s.beginWait x).stack = s.stack := rfl
@[simp] theorem State.beginWait_dt (x : Nibble) : (s.beginWait x).dt = s.dt := rfl
@[simp] theorem State.beginWait_st (x : Nibble) : (s.beginWait x).st = s.st := rfl
@[simp] theorem State.beginWait_paused (x : Nibble) : (s.beginWait x).paused = true := rfl
@[simp] theorem State.beginWait_waitReg (x : Nibble) : (s.beginWait x).waitReg = x := rfl
@[simp] theorem State.beginWait_fault (x : Nibble) : (s.beginWait x).fault = s.fault := rfl
@[simp] theorem State.beginWait_grid (x : Nibble) : (s.beginWait x).grid = s.grid := rfl
@[simp] theorem State.beginWait_keys (x : Nibble) : (s.beginWait x).keys = s.keys := rfl
@[simp] theorem State.beginWait_params (x : Nibble) : (s.beginWait x).params = s.params := rfl
@[simp] theorem State.beginWait_stepsLeft (x : Nibble) : (s.beginWait x).stepsLeft = s.stepsLeft := rfl
@[simp] theorem State.beginWait_inputs (x : Nibble) : (s.beginWait x).inputs = s.inputs := rfl
@[simp] theorem State.beginWait_outputs (x : Nibble) : (s.beginWait x).outputs = s.outputs := rfl
@[simp] theorem State.beginWait_draws (x : Nibble) : (s.beginWait x).draws = s.draws := rfl
@[simp] theorem State.beginWait_reg (x : Nibble) (r : Nibble) : (s.beginWait x).reg r = s.reg r := rfl
@[simp] theorem State.beginWait_memRead (x : Nibble) (a : Nat) : (s.beginWait x).memRead a = s.memRead a := rfl

/-! ### `handOff` -/
@[simp] theorem State.handOff_mem (b : Byte) : (s.handOff b).mem = s.mem := rfl
@[simp] theorem State.handOff_v (b : Byte) : (s.handOff b).v = (s.setReg s.waitReg b).v := rfl
@[simp] theorem State.handOff_pc (b : Byte) : (s.handOff b).pc = s.pc := rfl
@[simp] theorem State.handOff_i (b : Byte) : (s.handOff b).i = s.i := rfl
@[simp] theorem State.handOff_stack (b : Byte) : (s.handOff b).stack = s.stack := rfl
@[simp] theorem State.handOff_dt (b : Byte) : (s.handOff b).dt = s.dt := rfl
@[simp] theorem State.handOff_st (b : Byte) : (s.handOff b).st = s.st := rfl
@[simp] theorem State.handOff_paused (b : Byte) : (s.handOff b).paused = false := rfl
@[simp] theorem State.handOff_waitReg (b : Byte) : (s.handOff b).waitReg = s.waitReg := rfl
@[simp] theorem State.handOff_fault (b : Byte) : (s.handOff b).fault = s.fault := rfl
@[simp] theorem State.handOff_grid (b : Byte) : (s.handOff b).grid = s.grid := rfl
@[simp] theorem State.handOff_keys (b : Byte) : (s.handOff b).keys = s.keys := rfl
@[simp] theorem State.handOff_params (b : Byte) : (s.handOff b).params = s.params := rfl
@[simp] theorem State.handOff_stepsLeft (b : Byte) : (s.handOff b).stepsLeft = s.stepsLeft := rfl
@[simp] theorem State.handOff_inputs (b : Byte) : (s.handOff b).inputs = s.inputs := rfl
@[simp] theorem State.handOff_outputs (b : Byte) : (s.handOff b).outputs = s.outputs := rfl
@[simp] theorem State.handOff_draws (b : Byte) : (s.handOff b).draws = s.draws := rfl
@[simp] theorem State.handOff_memRead (b : Byte) (a : Nat) : (s.handOff b).memRead a = s.memRead a := rfl

/-! ### `emit` -/
@[simp] theorem State.emit_mem (o : Output) : (s.emit o).mem = s.mem := rfl
@[simp] theorem State.emit_v (o : Output) : (s.emit o).v = s.v := rfl
@[simp] theorem State.emit_pc (o : Output) : (s.emit o).pc = s.pc := rfl
@[simp] theorem State.emit_i (o : Output) : (s.emit o).i = s.i := rfl
@[simp] theorem State.emit_stack (o : Output) : (s.emit o).stack = s.stack := rfl
@[simp] theorem State.emit_dt (o : Output) : (s.emit o).dt = s.dt := rfl
@[simp] theorem State.emit_st (o : Output) : (s.emit o).st = s.st := rfl
@[simp] theorem State.emit_paused (o : Output) : (s.emit o).paused = s.paused := rfl
@[simp] theorem State.emit_waitReg (o : Output) : (s.emit o).waitReg = s.waitReg := rfl
@[simp] theorem State.emit_fault (o : Output) : (s.emit o).fault = s.fault := rfl
@[simp] theorem State.emit_grid (o : Output) : (s.emit o).grid = s.grid := rfl
@[simp] theorem State.emit_keys (o : Output) : (s.emit o).keys = s.keys := rfl
@[simp] theorem State.emit_params (o : Output) : (s.emit o).params = s.params := rfl
@[simp] theorem State.emit_stepsLeft (o : Output) : (s.emit o).stepsLeft = s.stepsLeft := rfl
@[simp] theorem State.emit_inputs (o : Output) : (s.emit o).inputs = s.inputs := rfl
@[simp] theorem State.emit_outputs (o : Output) : (s.emit o).outputs = o :: s.outputs := rfl
@[simp] theorem State.emit_draws (o : Output) : (s.emit o).draws = s.draws := rfl
@[simp] theorem State.emit_reg (o : Output) (r : Nibble) : (s.emit o).reg r = s.reg r := rfl
@[simp] theorem State.emit_memRead (o : Output) (a : Nat) : (s.emit o).memRead a = s.memRead a := rfl

/-! ### `decrementTimers` -/
@[simp] theorem State.decrementTimers_mem : s.decrementTimers.mem = s.mem := by unfold State.decrementTimers; split <;> rfl
@[simp] theorem State.decrementTimers_v : s.decrementTimers.v = s.v := by unfold State.decrementTimers; split <;> rfl
@[simp] theorem State.decrementTimers_pc : s.decrementTimers.pc = s.pc := by unfold State.decrementTimers; split <;> rfl
@[simp] theorem State.decrementTimers_i : s.decrementTimers.i = s.i := by unfold State.decrementTimers; split <;> rfl
@[simp] theorem State.decrementTimers_stack : s.decrementTimers.stack = s.stack := by unfold State.decrementTimers; split <;> rfl
@[simp] theorem State.decrementTimers_paused : s.decrementTimers.paused = s.paused := by unfold State.decrementTimers; split <;> rfl
@[simp] theorem State.decrementTimers_waitReg : s.decrementTimers.waitReg = s.waitReg := by unfold State.decrementTimers; split <;> rfl
@[simp] theorem State.decrementTimers_fault : s.decrementTimers.fault = s.fault := by unfold State.decrementTimers; split <;> rfl
@[simp] theorem State.decrementTimers_grid : s.decrementTimers.grid = s.grid := by unfold State.decrementTimers; split <;> rfl
@[simp] theorem State.decrementTimers_keys : s.decrementTimers.keys = s.keys := by unfold State.decrementTimers; split <;> rfl
@[simp] theorem State.decrementTimers_params : s.decrementTimers.params = s.params := by unfold State.decrementTimers; split <;> rfl
@[simp] theorem State.decrementTimers_stepsLeft : s.decrementTimers.stepsLeft = s.stepsLeft := by unfold State.decrementTimers; split <;> rfl
@[simp] theorem State.decrementTimers_inputs : s.decrementTimers.inputs = s.inputs := by unfold State.decrementTimers; split <;> rfl
@[simp] theorem State.decrementTimers_outputs : s.decrementTimers.outputs = s.outputs := by unfold State.decrementTimers; split <;> rfl
@[simp] theorem State.decrementTimers_draws : s.decrementTimers.draws = s.draws := by unfold State.decrementTimers; split <;> rfl
@[simp] theorem State.decrementTimers_reg (r : Nibble) : s.decrementTimers.reg r = s.reg r := by simp only [State.reg, State.decrementTimers_v]
@[simp] theorem State.decrementTimers_memRead (a : Nat) : s.decrementTimers.memRead a = s.memRead a := by simp only [State.memRead, State.decrementTimers_mem]

/-! ### `finishTick` -/
@[simp] theorem State.finishTick_mem : s.finishTick.mem = s.mem := by simp [State.finishTick]
@[simp] theorem State.finishTick_v : s.finishTick.v = s.v := by simp [State.finishTick]
@[simp] theorem State.finishTick_pc : s.finishTick.pc = s.pc := by simp [State.finishTick]
@[simp] theorem State.finishTick_i : s.finishTick.i = s.i := by simp [State.finishTick]
@[simp] theorem State.finishTick_stack : s.finishTick.stack = s.stack := by simp [State.finishTick]
@[simp] theorem State.finishTick_dt : s.finishTick.dt = s.decrementTimers.dt := by simp [State.finishTick]
@[simp] theorem State.finishTick_st : s.finishTick.st = s.decrementTimers.st := by simp [State.finishTick]
@[simp] theorem State.finishTick_paused : s.finishTick.paused = s.paused := by simp [State.finishTick]
@[simp] theorem State.finishTick_waitReg : s.finishTick.waitReg = s.waitReg := by simp [State.finishTick]
@[simp] theorem State.finishTick_fault : s.finishTick.fault = s.fault := by simp [State.finishTick]
@[simp] theorem State.finishTick_grid : s.finishTick.grid = s.grid := by simp [State.finishTick]
@[simp] theorem State.finishTick_keys : s.finishTick.keys = s.keys := by simp [State.finishTick]
@[simp] theorem State.finishTick_params : s.finishTick.params = s.params := by simp [State.finishTick]
@[simp] theorem State.finishTick_stepsLeft : s.finishTick.stepsLeft = s.stepsLeft := by simp [State.finishTick]
@[simp] theorem State.finishTick_inputs : s.finishTick.inputs = s.inputs := by simp [State.finishTick]
@[simp] theorem State.finishTick_draws : s.finishTick.draws = s.draws := by simp [State.finishTick]
@[simp] theorem State.finishTick_reg (r : Nibble) : s.finishTick.reg r = s.reg r := by simp only [State.reg, State.finishTick_v]
@[simp] theorem State.finishTick_memRead (a : Nat) : s.finishTick.memRead a = s.memRead a := by simp only [State.memRead, State.finishTick_mem]

end Sys2Proof.Machine
end

