-- ==== Sys2Proof/Laws/Memory.lean ====
section
/-! SUPPORT. Memory: a read after a write to the same place gives the byte written, a write leaves every other place
alone, and every write keeps the canonical form; then the same for the machine's accesses, whose addresses wrap. -/

namespace Sys2Proof.Machine

/-! ### The list of cells -/

theorem Memory.read_erase_same (m : Memory) (a : Nat) : (m.erase a).read a = unlistedByte := by
  induction m with
  | nil => rfl
  | cons c rest ih =>
    by_cases h : c.1 = a
    · simpa [Memory.erase, h] using ih
    · simpa [Memory.erase, Memory.read, h] using ih

theorem Memory.read_erase_other (m : Memory) {a a' : Nat} (h : a' ≠ a) : (m.erase a).read a' = m.read a' := by
  induction m with
  | nil => rfl
  | cons c rest ih =>
    by_cases hc : c.1 = a
    · have : c.1 ≠ a' := fun e => h (e.symm.trans hc)
      simpa [Memory.erase, Memory.read, hc, Ne.symm h] using ih
    · by_cases hc' : c.1 = a'
      · simp [Memory.erase, Memory.read, hc', h]
      · simpa [Memory.erase, Memory.read, hc, hc'] using ih

theorem Memory.read_insert_other (m : Memory) (b : Byte) {a a' : Nat} (h : a' ≠ a) :
    (m.insert a b).read a' = m.read a' := by
  induction m with
  | nil => simp [Memory.insert, Memory.read, Ne.symm h]
  | cons c rest ih =>
    unfold Memory.insert
    split
    · simp [Memory.read, Ne.symm h]
    · simp [Memory.read, ih]

/-- No entry for `a` in memory. -/
def Memory.Free (m : Memory) (a : Nat) : Prop := ∀ c ∈ m, c.1 ≠ a

theorem Memory.free_erase (m : Memory) (a : Nat) : (m.erase a).Free a := by
  intro c hc
  simpa [Memory.erase] using (List.mem_filter.mp hc).2

theorem Memory.read_insert_same (m : Memory) (b : Byte) {a : Nat} (h : m.Free a) : (m.insert a b).read a = b := by
  induction m with
  | nil => simp [Memory.insert, Memory.read]
  | cons c rest ih =>
    have hc : c.1 ≠ a := h c (by simp)
    have hr : Memory.Free rest a := fun d hd => h d (by simp [hd])
    unfold Memory.insert
    split
    · simp [Memory.read]
    · simpa [Memory.read, hc] using ih hr

theorem Memory.read_write (m : Memory) (a a' : Nat) (b : Byte) :
    (m.write a b).read a' = if a' = a then b else m.read a' := by
  unfold Memory.write
  split
  · rename_i hb
    split
    · rename_i h
      rw [h, Memory.read_erase_same, hb]
    · rename_i h
      rw [Memory.read_erase_other m h]
  · split
    · rename_i h
      rw [h, Memory.read_insert_same _ b (Memory.free_erase m a)]
    · rename_i h
      rw [Memory.read_insert_other _ b h, Memory.read_erase_other m h]

/-! ### The canonical form -/

theorem Memory.wfFrom_mono {lo lo' : Nat} (h : lo' ≤ lo) {m : Memory} (hm : Memory.wfFrom lo m = true) :
    Memory.wfFrom lo' m = true := by
  cases m with
  | nil => rfl
  | cons c rest =>
    simp only [Memory.wfFrom, Bool.and_eq_true, decide_eq_true_eq] at hm ⊢
    exact ⟨⟨⟨by omega, hm.1.1.2⟩, hm.1.2⟩, hm.2⟩

theorem Memory.wfFrom_erase (a : Nat) {lo : Nat} {m : Memory} (hm : Memory.wfFrom lo m = true) :
    Memory.wfFrom lo (m.erase a) = true := by
  induction m generalizing lo with
  | nil => rfl
  | cons c rest ih =>
    simp only [Memory.wfFrom, Bool.and_eq_true, decide_eq_true_eq] at hm
    obtain ⟨⟨⟨hlo, hlt⟩, hne⟩, hrest⟩ := hm
    have hr := ih hrest
    by_cases h : c.1 = a
    · have : Memory.erase (c :: rest) a = Memory.erase rest a := by simp [Memory.erase, h]
      rw [this]
      exact Memory.wfFrom_mono (by omega) hr
    · have : Memory.erase (c :: rest) a = c :: Memory.erase rest a := by simp [Memory.erase, h]
      rw [this]
      simp only [Memory.wfFrom, Bool.and_eq_true, decide_eq_true_eq]
      exact ⟨⟨⟨hlo, hlt⟩, hne⟩, hr⟩

theorem Memory.wfFrom_insert {lo a : Nat} {b : Byte} {m : Memory} (hm : Memory.wfFrom lo m = true)
    (hfree : m.Free a) (hlo : lo ≤ a) (ha : a < Config.memSize) (hb : b ≠ unlistedByte) :
    Memory.wfFrom lo (m.insert a b) = true := by
  induction m generalizing lo with
  | nil => simp_all [Memory.insert, Memory.wfFrom]
  | cons c rest ih =>
    have hc : c.1 ≠ a := hfree c (by simp)
    have hr : Memory.Free rest a := fun d hd => hfree d (by simp [hd])
    simp only [Memory.wfFrom, Bool.and_eq_true, decide_eq_true_eq] at hm
    obtain ⟨⟨⟨hlo', hlt⟩, hne⟩, hrest⟩ := hm
    unfold Memory.insert
    split
    · simp only [Memory.wfFrom, Bool.and_eq_true, decide_eq_true_eq, bne_iff_ne]
      exact ⟨⟨⟨hlo, ha⟩, hb⟩, ⟨⟨⟨by omega, hlt⟩, by simpa using hne⟩, hrest⟩⟩
    · simp only [Memory.wfFrom, Bool.and_eq_true, decide_eq_true_eq]
      exact ⟨⟨⟨hlo', hlt⟩, hne⟩, ih hrest hr (by omega)⟩

theorem Memory.wf_nil : Memory.wf [] = true := rfl

theorem Memory.wf_write {m : Memory} (hm : m.wf = true) {a : Nat} (ha : a < Config.memSize) (b : Byte) :
    (m.write a b).wf = true := by
  unfold Memory.write
  split
  · exact Memory.wfFrom_erase a hm
  · rename_i hb
    exact Memory.wfFrom_insert (Memory.wfFrom_erase a hm) (Memory.free_erase m a) (Nat.zero_le a) ha hb

/-! ### The machine's accesses (R51) -/

theorem wrapAddr_lt (a : Nat) : wrapAddr a < Config.memSize := Nat.mod_lt a (by decide)

theorem State.memRead_memWrite (s : State) (a a' : Nat) (b : Byte) :
    (s.memWrite a b).memRead a' = if wrapAddr a' = wrapAddr a then b else s.memRead a' :=
  Memory.read_write s.mem (wrapAddr a) (wrapAddr a') b

theorem State.memWrite_wf {s : State} (h : s.mem.wf = true) (a : Nat) (b : Byte) : (s.memWrite a b).mem.wf = true :=
  Memory.wf_write h (wrapAddr_lt a) b

theorem State.writeBytes_wf {s : State} (h : s.mem.wf = true) (base : Nat) (bytes : List Byte) :
    (s.writeBytes base bytes).mem.wf = true := by
  induction bytes generalizing s base with
  | nil => exact h
  | cons b rest ih => exact ih (State.memWrite_wf h base b) (base + 1)

/-- `writeBytes` changes memory and nothing else. -/
theorem State.writeBytes_eq (s : State) (base : Nat) (bytes : List Byte) :
    s.writeBytes base bytes = { s with mem := (s.writeBytes base bytes).mem } := by
  induction bytes generalizing s base with
  | nil => rfl
  | cons b rest ih => exact ih (s.memWrite base b) (base + 1)

/-- What `writeBytes` leaves in memory depends on memory alone. -/
theorem State.writeBytes_mem_congr {s t : State} (h : s.mem = t.mem) (base : Nat) (bytes : List Byte) :
    (s.writeBytes base bytes).mem = (t.writeBytes base bytes).mem := by
  induction bytes generalizing s t base with
  | nil => exact h
  | cons b rest ih =>
    exact ih (s := s.memWrite base b) (t := t.memWrite base b) (by simp only [State.memWrite_mem, h]) (base + 1)

/-- An address outside the bytes stored reads as before. -/
theorem State.memRead_writeBytes_other (s : State) (base : Nat) (bytes : List Byte) (a : Nat)
    (h : ∀ k, k < bytes.length → wrapAddr a ≠ wrapAddr (base + k)) :
    (s.writeBytes base bytes).memRead a = s.memRead a := by
  induction bytes generalizing s base with
  | nil => rfl
  | cons b rest ih =>
    have h0 : wrapAddr a ≠ wrapAddr base := h 0 (by simp)
    have hr : ∀ k, k < rest.length → wrapAddr a ≠ wrapAddr (base + 1 + k) := fun k hk => by
      have := h (k + 1) (by simpa using hk)
      rwa [show base + 1 + k = base + (k + 1) by omega]
    rw [State.writeBytes, ih (s.memWrite base b) (base + 1) hr, State.memRead_memWrite, if_neg h0]

/-- The bytes stored read back, where the run of them is no longer than memory. -/
theorem State.memRead_writeBytes_at (s : State) (base : Nat) (bytes : List Byte)
    (hlen : bytes.length ≤ Config.memSize) (k : Nat) (hk : k < bytes.length) (a : Nat)
    (ha : wrapAddr a = wrapAddr (base + k)) :
    (s.writeBytes base bytes).memRead a = bytes[k] := by
  induction bytes generalizing s base k with
  | nil => simp at hk
  | cons b rest ih =>
    simp only [List.length_cons] at hlen hk
    cases k with
    | zero =>
      have hother : ∀ j, j < rest.length → wrapAddr a ≠ wrapAddr (base + 1 + j) := by
        intro j hj
        simp only [wrapAddr, Config.memSize] at ha hlen ⊢
        omega
      rw [State.writeBytes, State.memRead_writeBytes_other _ _ _ _ hother, State.memRead_memWrite,
        if_pos (by simpa using ha)]
      rfl
    | succ j =>
      rw [State.writeBytes]
      have := ih (s.memWrite base b) (base + 1) (by omega) j (by omega)
        (by rwa [show base + 1 + j = base + (j + 1) by omega])
      simpa using this

/-- Addresses that agree mod 4096 read the same byte (R51). -/
theorem State.memRead_congr (s : State) {a b : Nat} (h : wrapAddr a = wrapAddr b) : s.memRead a = s.memRead b := by
  simp only [State.memRead, h]

/-- Bases that agree mod 4096 store to the same bytes (R51). -/
theorem State.writeBytes_congr (s : State) (bytes : List Byte) {a b : Nat} (h : wrapAddr a = wrapAddr b) :
    s.writeBytes a bytes = s.writeBytes b bytes := by
  induction bytes generalizing s a b with
  | nil => rfl
  | cons c rest ih =>
    have hw : s.memWrite a c = s.memWrite b c := by simp only [State.memWrite, h]
    rw [State.writeBytes, State.writeBytes, hw]
    exact ih _ (by simp only [wrapAddr, Config.memSize] at h ⊢; omega)

section
variable (s : State) (base : Nat) (bytes : List Byte)

@[simp] theorem State.writeBytes_v : (s.writeBytes base bytes).v = s.v := by rw [State.writeBytes_eq]
@[simp] theorem State.writeBytes_pc : (s.writeBytes base bytes).pc = s.pc := by rw [State.writeBytes_eq]
@[simp] theorem State.writeBytes_i : (s.writeBytes base bytes).i = s.i := by rw [State.writeBytes_eq]
@[simp] theorem State.writeBytes_stack : (s.writeBytes base bytes).stack = s.stack := by rw [State.writeBytes_eq]
@[simp] theorem State.writeBytes_dt : (s.writeBytes base bytes).dt = s.dt := by rw [State.writeBytes_eq]
@[simp] theorem State.writeBytes_st : (s.writeBytes base bytes).st = s.st := by rw [State.writeBytes_eq]
@[simp] theorem State.writeBytes_paused : (s.writeBytes base bytes).paused = s.paused := by rw [State.writeBytes_eq]
@[simp] theorem State.writeBytes_waitReg : (s.writeBytes base bytes).waitReg = s.waitReg := by rw [State.writeBytes_eq]
@[simp] theorem State.writeBytes_fault : (s.writeBytes base bytes).fault = s.fault := by rw [State.writeBytes_eq]
@[simp] theorem State.writeBytes_grid : (s.writeBytes base bytes).grid = s.grid := by rw [State.writeBytes_eq]
@[simp] theorem State.writeBytes_keys : (s.writeBytes base bytes).keys = s.keys := by rw [State.writeBytes_eq]
@[simp] theorem State.writeBytes_params : (s.writeBytes base bytes).params = s.params := by rw [State.writeBytes_eq]
@[simp] theorem State.writeBytes_stepsLeft : (s.writeBytes base bytes).stepsLeft = s.stepsLeft := by
  rw [State.writeBytes_eq]
@[simp] theorem State.writeBytes_inputs : (s.writeBytes base bytes).inputs = s.inputs := by rw [State.writeBytes_eq]
@[simp] theorem State.writeBytes_outputs : (s.writeBytes base bytes).outputs = s.outputs := by rw [State.writeBytes_eq]
@[simp] theorem State.writeBytes_draws : (s.writeBytes base bytes).draws = s.draws := by rw [State.writeBytes_eq]
@[simp] theorem State.writeBytes_reg (r : Nibble) : (s.writeBytes base bytes).reg r = s.reg r := by
  simp only [State.reg, State.writeBytes_v]

end

end Sys2Proof.Machine
end

