-- ==== Sys2Proof/Laws/Ops.lean ====
section
/-! SUPPORT. For each shared operation, one lemma that says what it does: registers, pc, skips, the stack, fatal errors,
the pixel grid, the keys, the Executor's step and the Scheduler's bookkeeping. -/

namespace Sys2Proof.Machine

/-! ### Registers -/

@[simp] theorem State.reg_setReg (s : State) (x r : Nibble) (b : Byte) :
    (s.setReg x b).reg r = if r = x then b else s.reg r := by
  by_cases h : r = x
  · subst h
    simp [State.reg, State.setReg]
  · have hn : x.toNat ≠ r.toNat := fun e => h (BitVec.eq_of_toNat_eq e.symm)
    simp [State.reg, State.setReg, h, Vector.getElem_set_ne, hn]

theorem State.reg_loadedRegs (s : State) (x r : Nibble) :
    ({ s with v := s.loadedRegs x } : State).reg r
      = if r.toNat ≤ x.toNat then s.memRead (s.indexAddr r.toNat) else s.reg r := by
  simp [State.reg, State.loadedRegs]

theorem State.regsThrough_length (s : State) (x : Nibble) : (s.regsThrough x).length = x.toNat + 1 := by
  have := x.isLt
  simp [State.regsThrough]
  omega

theorem State.regsThrough_getElem (s : State) (x r : Nibble) (h : r.toNat < (s.regsThrough x).length) :
    (s.regsThrough x)[r.toNat] = s.reg r := by
  simp [State.regsThrough, State.reg]

/-- A run of bytes stored from I on reads back at I + k (R207, R208). -/
theorem State.memRead_storedFromI (s : State) (bytes : List Byte) (hlen : bytes.length ≤ Config.memSize) (k : Nat)
    (hk : k < bytes.length) : (s.writeBytes (s.indexAddr 0) bytes).memRead (s.indexAddr k) = bytes[k] :=
  State.memRead_writeBytes_at s (s.indexAddr 0) bytes hlen k hk (s.indexAddr k) rfl

/-! ### Flags -/

theorem carryFlag_toNat (a b : Byte) : (carryFlag a b).toNat = if a.toNat + b.toNat > 255 then 1 else 0 := by
  by_cases h : a.toNat + b.toNat > 255 <;> simp [carryFlag, sumOf, flagOf, h]

theorem noBorrowFlag_toNat (a b : Byte) : (noBorrowFlag a b).toNat = if a.toNat > b.toNat then 1 else 0 := by
  by_cases h : a.toNat > b.toNat <;> simp [noBorrowFlag, flagOf, h]

theorem lowBitFlag_toNat (a : Byte) : (lowBitFlag a).toNat = a.toNat % 2 := by
  revert a
  decide

theorem highBitFlag_toNat (a : Byte) : (highBitFlag a).toNat = if a.toNat ≥ 128 then 128 else 0 := by
  revert a
  decide

/-! ### The program counter -/

theorem State.setPc_toNat (s : State) (a : Addr) : s.setPc a.toNat = { s with pc := a } := by
  simp [State.setPc]

theorem State.advance_eq (s : State) : s.advance = { s with pc := s.pc + 2 } := by
  rw [← s.advance_pc]
  rfl

theorem State.skipIf_eq (s : State) (c : Bool) : s.skipIf c = { s with pc := if c then s.pc + 2 else s.pc } := by
  cases c
  · rfl
  · exact s.advance_eq

/-! ### The stack -/

theorem State.pop_eq (s : State) :
    s.pop = match s.stack with
      | [] => none
      | a :: rest => some (a, { s with stack := rest }) := rfl

theorem State.stackFull_iff (s : State) : s.stackFull = true ↔ s.params.stackCap = some s.stack.length := by
  unfold State.stackFull
  cases s.params.stackCap with
  | none => simp
  | some cap => simp [eq_comm (a := cap)]

/-! ### Fatal errors -/

theorem State.halted_iff (s : State) : s.halted = true ↔ s.fault ≠ none := by
  simp [State.halted, Option.isSome_iff_ne_none]

/-- In the step that fetched at `s.pc`, the address recorded is `s.pc` (R231). -/
theorem State.advance_raise_eq (s : State) (k : FaultKind) (op : Opcode) :
    s.advance.raise k op = { s with pc := s.pc + 2, fault := some ⟨k, s.pc, op⟩ } := by
  simp [State.advance_eq, State.raise, State.instrAddr]

/-! ### The grid -/

theorem Grid.cell_clear (x y : Nat) : Grid.clear.cell x y = false := by
  simp [Grid.clear, Grid.cell]

/-- Two points name the same cell (R254). -/
def SameCell (p q : Nat × Nat) : Prop :=
  p.1 % 64 = q.1 % 64 ∧ p.2 % 32 = q.2 % 32

theorem Grid.cell_congr (g : Grid) {x y x' y' : Nat} (h : SameCell (x, y) (x', y')) : g.cell x y = g.cell x' y' := by
  obtain ⟨hx, hy⟩ := h
  simp only [Grid.cell]
  simp only at hx hy
  congr 1
  simp only [hy]

theorem Grid.cell_toggle (g : Grid) (x y x' y' : Nat) :
    (g.toggle x y).cell x' y'
      = if x' % 64 = x % 64 ∧ y' % 32 = y % 32 then !g.cell x' y' else g.cell x' y' := by
  by_cases hy : y' % 32 = y % 32
  · by_cases hx : x' % 64 = x % 64
    · rw [Grid.cell_congr g (x' := x) (y' := y) ⟨hx, hy⟩]
      simp [Grid.toggle, Grid.cell, hx, hy]
    · simp [Grid.toggle, Grid.cell, hx, hy, Vector.getElem_set_ne, Ne.symm hx]
  · simp [Grid.toggle, Grid.cell, hy, Vector.getElem_set_ne, Ne.symm hy]

/-- Grids are equal when every cell is. -/
theorem Grid.ext_cell {g g' : Grid} (h : ∀ x y, x < 64 → y < 32 → g.cell x y = g'.cell x y) : g = g' := by
  apply Vector.ext
  intro y hy
  apply Vector.ext
  intro x hx
  have := h x y hx hy
  simpa [Grid.cell, Nat.mod_eq_of_lt hx, Nat.mod_eq_of_lt hy] using this

/-- `set_pixel` answers true exactly when the cell was set (R254). -/
theorem Grid.setPixel_eq (g : Grid) (x y : Nat) : g.setPixel x y = (g.toggle x y, g.cell x y) := by
  simp [Grid.setPixel, Grid.cell_toggle]

/-- How many of a list of points name a given cell. -/
def hits (ps : List (Nat × Nat)) (x y : Nat) : Nat :=
  ps.countP fun p => decide (p.1 % 64 = x % 64 ∧ p.2 % 32 = y % 32)

/-- One more toggle turns the parity of the toggles over. -/
theorem toggled_parity (b : Bool) (n : Nat) :
    ((!b) != decide (n % 2 = 1)) = (b != decide ((n + 1) % 2 = 1)) := by
  rcases Nat.mod_two_eq_zero_or_one n with hn | hn
  · have : (n + 1) % 2 = 1 := by omega
    simp [hn, this]
  · have : (n + 1) % 2 = 0 := by omega
    simp [hn, this]

/-- Plotting toggles each cell as often as the points name it. -/
theorem Grid.cell_plot (g : Grid) (ps : List (Nat × Nat)) (x y : Nat) :
    (g.plot ps).1.cell x y = (g.cell x y != decide (hits ps x y % 2 = 1)) := by
  induction ps generalizing g with
  | nil => simp [Grid.plot, hits]
  | cons p rest ih =>
    have step : (g.plot (p :: rest)).1 = ((g.setPixel p.1 p.2).1.plot rest).1 := rfl
    rw [step, ih, Grid.setPixel_eq]
    simp only [Grid.cell_toggle, hits, List.countP_cons]
    by_cases h : p.1 % 64 = x % 64 ∧ p.2 % 32 = y % 32
    · have h' : x % 64 = p.1 % 64 ∧ y % 32 = p.2 % 32 := ⟨h.1.symm, h.2.symm⟩
      rw [if_pos h', if_pos (decide_eq_true h)]
      exact toggled_parity _ _
    · have h' : ¬(x % 64 = p.1 % 64 ∧ y % 32 = p.2 % 32) := fun e => h ⟨e.1.symm, e.2.symm⟩
      simp [if_neg h', h]

/-- Where the points name different cells, plotting answers true exactly when one of the cells was set. -/
theorem Grid.plot_collided (g : Grid) (ps : List (Nat × Nat)) (h : ps.Pairwise fun p q => ¬SameCell p q) :
    (g.plot ps).2 = ps.any fun p => g.cell p.1 p.2 := by
  induction ps generalizing g with
  | nil => rfl
  | cons p rest ih =>
    obtain ⟨hp, hrest⟩ := List.pairwise_cons.mp h
    have step : (g.plot (p :: rest)).2 = ((g.setPixel p.1 p.2).2 || ((g.setPixel p.1 p.2).1.plot rest).2) := rfl
    rw [step, ih _ hrest, Grid.setPixel_eq, List.any_cons]
    congr 1
    simp only [List.any_eq]
    congr 1
    apply propext
    refine exists_congr fun q => and_congr_right fun hq => ?_
    have hne := hp q hq
    rw [Grid.cell_toggle, if_neg fun e => hne ⟨e.1.symm, e.2.symm⟩]

/-! ### The random source -/

@[simp] theorem State.drawByte_fst (s : State) : s.drawByte.1 = Config.randomByte s.draws := rfl

theorem State.drawByte_snd (s : State) : s.drawByte.2 = { s with draws := s.draws + 1 } := rfl

@[simp] theorem State.drawByte_snd_reg (s : State) (r : Nibble) : s.drawByte.2.reg r = s.reg r := rfl

/-! ### The keys -/

theorem Keys.isPressed_setKey (k : Keys) (c c' : Byte) (b : Bool) (hc : c.toNat < 16) :
    (k.setKey c b).isPressed c' = if c' = c then b else k.isPressed c' := by
  by_cases h : c' = c
  · subst h
    simp [Keys.isPressed, Keys.setKey, hc]
  · have hn : c.toNat ≠ c'.toNat := fun e => h (BitVec.eq_of_toNat_eq e.symm)
    by_cases hc' : c'.toNat < 16
    · simp [Keys.isPressed, Keys.setKey, hc, hc', h, Vector.getElem_set_ne, hn]
    · simp [Keys.isPressed, hc', h]

/-! ### Results -/

@[simp] theorem Result.andThen_next (s : State) (f : State → Result) : Result.andThen (.next s) f = f s := rfl

/-- What a chained result that answers a next state says of its parts. -/
theorem Result.andThen_eq_next {r : Result} {f : State → Result} {t : State} (h : r.andThen f = .next t) :
    ∃ u, r = .next u ∧ f u = .next t := by
  cases r with
  | next u => exact ⟨u, rfl, h⟩
  | fault e => cases h
  | refused e => cases h

/-! ### The Executor and the Scheduler -/

theorem executorStep_halted {s : State} (h : s.fault ≠ none) : executorStep s = .next s := by
  simp [executorStep, s.halted_iff.mpr h]

theorem executorStep_paused {s : State} (hf : s.fault = none) (hp : s.paused = true) : executorStep s = .next s := by
  simp [executorStep, State.halted, hf, hp]

theorem executorStep_running {s : State} (hf : s.fault = none) (hp : s.paused = false) :
    executorStep s = executeOpcode s.fetchOpcode s := by
  simp [executorStep, State.halted, hf, hp]

/-- The decrement changes the timers and nothing else (R246). -/
theorem State.decrementTimers_eq (s : State) :
    s.decrementTimers = { s with dt := s.decrementTimers.dt, st := s.decrementTimers.st } := by
  unfold State.decrementTimers
  split <;> rfl

/-- The end of a tick changes the timers and the record of calls and nothing else (R245). -/
theorem State.finishTick_eq (s : State) :
    s.finishTick = { s with
      dt := s.decrementTimers.dt
      st := s.decrementTimers.st
      outputs := .present :: toneCall s.decrementTimers.st :: s.outputs } :=
  congrArg (fun d : State => (d.emit (toneCall d.st)).emit .present) s.decrementTimers_eq

/-- A timer's decrement is exact subtraction, floored at 0 (R246). -/
theorem timerTick_toNat (t : Byte) : (timerTick t).toNat = t.toNat - 1 := by
  revert t
  decide

/-- With no outside event to come, a step is a move of the block by itself. -/
theorem step_undisturbed {s : State} (h : s.inputs = []) : step s = runStep s := by
  simp [step, moveOnce, h]

/-- A run of one step more goes on from the next state. -/
theorem core_run_succ {s t : State} (h : step s = .next t) (k : Nat) :
    Host.Core.run Sys2Proof.core (k + 1) s = Host.Core.run Sys2Proof.core k t := by
  have h' : Sys2Proof.core.step s = .next t := h
  simp only [Host.Core.run, h']

/-- Everything a step that answers a next state can be: a move of the block by itself, or an outside event, from the
state with the input used up. -/
theorem step_cases {s t : State} (h : step s = .next t) :
    ∃ rest, (runStep { s with inputs := rest } = .next t ∧ (s.inputs = [] ∧ rest = [] ∨ s.inputs = .quiet :: rest)) ∨
      ∃ e, s.inputs = .event e :: rest ∧ deliver e { s with inputs := rest } = .next t := by
  unfold step moveOnce at h
  split at h
  · rename_i he
    have hs : s = { s with inputs := [] } := by rw [← he]
    exact ⟨[], .inl ⟨hs ▸ h, .inl ⟨he, rfl⟩⟩⟩
  · rename_i rest he
    exact ⟨rest, .inl ⟨h, .inr he⟩⟩
  · rename_i e rest he
    exact ⟨rest, .inr ⟨e, he, h⟩⟩

/-- Everything an outside event that is not refused does (R258, R265, R280, R282, R284). -/
theorem deliver_cases {e : HostEvent} {s t : State} (h : deliver e s = .next t) :
    (e = .reset ∧ s.betweenTicks = true ∧ t = s.resetBlock) ∨
    (e = .loadFont ∧ s.betweenTicks = true ∧ t = s.loadFont) ∨
    (∃ bytes, e = .loadProgram bytes ∧ s.betweenTicks = true ∧ bytes.length ≤ Config.maxProgram ∧
      t = s.writeBytes Config.programBase bytes) ∨
    (∃ code, e = .keyPress code ∧ code.toNat < 16 ∧ s.paused = true ∧
      t = ({ s with keys := s.keys.setKey code true } : State).handOff code) ∨
    (∃ code, e = .keyPress code ∧ code.toNat < 16 ∧ s.paused = false ∧
      t = { s with keys := s.keys.setKey code true }) ∨
    (∃ code, e = .keyRelease code ∧ code.toNat < 16 ∧ t = { s with keys := s.keys.setKey code false }) := by
  cases e <;> simp only [deliver, betweenTicksOnly, loadProgram, keyPress, keyRelease] at h
  case reset =>
    split at h <;> cases h
    simp_all
  case loadFont =>
    split at h <;> cases h
    simp_all
  case loadProgram bytes =>
    split at h
    · split at h <;> cases h
      simp_all
    · cases h
  case keyPress code =>
    split at h
    · cases h
      cases hp : s.paused <;> simp_all
    · cases h
  case keyRelease code =>
    split at h <;> cases h
    simp_all

/-- Neither halted nor at a tick without steps, the block takes one step of the Executor and counts it. -/
theorem runStep_running {s : State} (hf : s.fault = none) (h : 0 < s.stepsLeft) :
    runStep s = (executorStep s).andThen fun t => .next t.afterStep := by
  simp [runStep, State.halted, hf, Nat.pos_iff_ne_zero.mp h]

theorem runStep_halted {s : State} (h : s.fault ≠ none) : runStep s = .next s := by
  simp [runStep, s.halted_iff.mpr h]

/-! ### The font -/

theorem fontBytes_length (f : Config.Font) : (fontBytes f).length = 80 := by
  simp [fontBytes, List.length_flatMap]

/-- Row r of glyph d is byte 5 d + r of the font (R282). -/
theorem fontBytes_getElem (f : Config.Font) (d r : Nat) (hd : d < 16) (hr : r < 5)
    (h : 5 * d + r < (fontBytes f).length) : (fontBytes f)[5 * d + r] = f[d][r] := by
  have key : ∀ (l : List (Vector Byte 5)) (d : Nat) (hd : d < l.length),
      (l.flatMap fun g => g.toList)[5 * d + r]? = some (l[d][r]) := by
    intro l
    induction l with
    | nil => intro d hd; simp at hd
    | cons g rest ih =>
      intro d hd
      rw [List.flatMap_cons]
      cases d with
      | zero =>
        rw [List.getElem?_append_left (by simp; omega)]
        simp [hr]
      | succ d =>
        rw [List.getElem?_append_right (by simp; omega)]
        simp only [Vector.length_toList, List.getElem_cons_succ]
        rw [← ih d (by simpa using hd)]
        congr 1
        omega
  rw [← Option.some_inj, ← List.getElem?_eq_getElem]
  have := key f.toList d (by simpa using hd)
  simpa [fontBytes] using this

/-- Loading the font changes memory alone (R282). -/
theorem State.loadFont_eq (s : State) : s.loadFont = { s with mem := s.loadFont.mem } :=
  State.writeBytes_eq _ _ _

/-- Row r of glyph d is at 5 d + r once the font is loaded (R282). -/
theorem State.memRead_loadFont_glyph (s : State) (d r : Nat) (hd : d < 16) (hr : r < 5) :
    s.loadFont.memRead (5 * d + r) = s.params.font[d][r] := by
  have hlen := fontBytes_length s.params.font
  rw [State.loadFont, State.memRead_writeBytes_at _ _ _ (by rw [hlen]; decide) (5 * d + r) (by omega) _
    (by simp [Config.fontBase])]
  exact fontBytes_getElem _ _ _ hd hr _

/-- Loading the font leaves every byte from 0x050 up (R282). -/
theorem State.memRead_loadFont_other (s : State) (a : Nat) (h : 80 ≤ wrapAddr a) :
    s.loadFont.memRead a = s.memRead a := by
  have hlen := fontBytes_length s.params.font
  refine State.memRead_writeBytes_other _ _ _ _ fun k hk => ?_
  simp only [wrapAddr, Config.memSize, Config.fontBase] at h ⊢
  omega

/-- The launch state differs from the state after reset in memory alone (R285). -/
theorem State.launch_eq (params : Config.Params) (grid : Grid) (keys : Keys) (image : List Byte) :
    State.launch params grid keys image
      = { State.afterReset params grid keys with mem := (State.launch params grid keys image).mem } := by
  unfold State.launch
  refine (State.writeBytes_eq _ _ _).trans ?_
  generalize State.mem _ = m
  rw [State.loadFont_eq]

end Sys2Proof.Machine
end

