-- ==== Sys2Proof/Laws/Draw.lean ====
section
/-! SUPPORT. What the sprite's points are: no two name the same cell, so plotting them turns each covered cell over
exactly once (R180, R181). -/

namespace Sys2Proof.Machine

/-- The points are the set bits of the sprite's rows, offset from the origin. -/
theorem State.mem_spritePoints (s : State) (x y n : Nibble) (p : Nat × Nat) :
    p ∈ s.spritePoints x y n ↔ ∃ r c, r < n.toNat ∧ c < 8 ∧
      (s.memRead (s.i.toNat + r)).getLsbD (7 - c) = true ∧ p = ((s.reg x).toNat + c, (s.reg y).toNat + r) := by
  simp only [State.spritePoints, rowColumns, List.mem_flatMap, List.mem_range, List.mem_map, List.mem_filter,
    State.indexAddr]
  constructor
  · rintro ⟨r, hr, c, ⟨hc, hb⟩, rfl⟩
    exact ⟨r, c, hr, hc, hb, rfl⟩
  · rintro ⟨r, c, hr, hc, hb, rfl⟩
    exact ⟨r, hr, c, ⟨hc, hb⟩, rfl⟩

/-- Two points of one sprite never reach the same cell: 8 columns are fewer than 64, 15 rows fewer than 32 (R180). -/
theorem State.spritePoints_pairwise (s : State) (x y n : Nibble) :
    (s.spritePoints x y n).Pairwise fun p q => ¬SameCell p q := by
  have hn := n.isLt
  unfold State.spritePoints
  rw [List.pairwise_flatMap]
  constructor
  · intro r hr
    rw [List.pairwise_map]
    refine List.Pairwise.filter _ (List.Pairwise.imp_of_mem ?_ (List.pairwise_lt_range (n := 8)))
    rintro a b ha hb hab ⟨hs, -⟩
    simp only [List.mem_range] at ha hb
    dsimp only at hs
    omega
  · refine List.Pairwise.imp_of_mem ?_ (List.pairwise_lt_range (n := n.toNat))
    rintro a b ha hb hab p hp q hq ⟨-, hs⟩
    simp only [List.mem_range, List.mem_map] at ha hb hp hq
    obtain ⟨c, -, rfl⟩ := hp
    obtain ⟨d, -, rfl⟩ := hq
    dsimp only at hs
    omega

open Classical in
/-- Of points that all name different cells, a cell is named once or not at all. -/
theorem hits_of_pairwise (ps : List (Nat × Nat)) (h : ps.Pairwise fun p q => ¬SameCell p q) (X Y : Nat) :
    hits ps X Y = if ∃ p ∈ ps, SameCell p (X, Y) then 1 else 0 := by
  induction ps with
  | nil => simp [hits]
  | cons p rest ih =>
    obtain ⟨hp, hr⟩ := List.pairwise_cons.mp h
    have ih := ih hr
    unfold hits at ih ⊢
    rw [List.countP_cons, ih]
    by_cases hc : SameCell p (X, Y)
    · have hrest : ¬∃ q ∈ rest, SameCell q (X, Y) := by
        rintro ⟨q, hq, hs⟩
        exact hp q hq ⟨hc.1.trans hs.1.symm, hc.2.trans hs.2.symm⟩
      have hpc : p.1 % 64 = X % 64 ∧ p.2 % 32 = Y % 32 := hc
      rw [if_neg hrest, if_pos (c := ∃ q ∈ p :: rest, SameCell q (X, Y)) ⟨p, by simp, hc⟩,
        if_pos (decide_eq_true hpc)]
    · have hpc : ¬(p.1 % 64 = X % 64 ∧ p.2 % 32 = Y % 32) := hc
      simp [hpc, hc]

/-- The cells a sprite covers are those its points name. -/
theorem State.spriteCovers_iff (s : State) (x y n : Nibble) {X Y : Nat} (hX : X < 64) (hY : Y < 32) :
    s.SpriteCovers x y n X Y ↔ ∃ p ∈ s.spritePoints x y n, SameCell p (X, Y) := by
  constructor
  · rintro ⟨r, c, hr, hc, hb, rfl, rfl⟩
    exact ⟨_, (s.mem_spritePoints x y n _).mpr ⟨r, c, hr, hc, hb, rfl⟩, by simp [SameCell]⟩
  · rintro ⟨p, hp, h1, h2⟩
    obtain ⟨r, c, hr, hc, hb, rfl⟩ := (s.mem_spritePoints x y n p).mp hp
    dsimp only at h1 h2
    exact ⟨r, c, hr, hc, hb, by omega, by omega⟩

/-- A covered cell lies on the grid. -/
theorem State.spriteCovers_lt {s : State} {x y n : Nibble} {X Y : Nat} (h : s.SpriteCovers x y n X Y) :
    X < 64 ∧ Y < 32 := by
  obtain ⟨r, c, _, _, _, rfl, rfl⟩ := h
  omega

end Sys2Proof.Machine
end

