-- ==== Sys2Proof/Laws/Encoding.lean ====
section
/-! SUPPORT. The fields of an encoded opcode are the fields it was made from, for each of the three layouts of R74. -/

namespace Sys2Proof

/-- A field of the low part of a concatenation. -/
theorem extractLsb_append_low {m n : Nat} (a : BitVec m) (b : BitVec n) (lo len : Nat) (h : lo + len ≤ n) :
    (a ++ b).extractLsb' lo len = b.extractLsb' lo len := by
  apply BitVec.eq_of_getLsbD_eq
  intro j hj
  have : lo + j < n := by omega
  simp [BitVec.getLsbD_append, hj, this]

/-- The high part of a concatenation, whole. -/
theorem extractLsb_append_high {m n : Nat} (a : BitVec m) (b : BitVec n) : (a ++ b).extractLsb' n m = a := by
  apply BitVec.eq_of_getLsbD_eq
  intro j hj
  simp [BitVec.getLsbD_append, hj]

/-- A field of the high part of a concatenation. -/
theorem extractLsb_append_part {m n : Nat} (a : BitVec m) (b : BitVec n) (lo len : Nat) (h : n ≤ lo) :
    (a ++ b).extractLsb' lo len = a.extractLsb' (lo - n) len := by
  apply BitVec.eq_of_getLsbD_eq
  intro j hj
  have h1 : ¬lo + j < n := by omega
  have h2 : lo + j - n = lo - n + j := by omega
  simp [BitVec.getLsbD_append, hj, h1, h2]

theorem extractLsb_whole {n : Nat} (a : BitVec n) : a.extractLsb' 0 n = a := by
  apply BitVec.eq_of_getLsbD_eq
  intro j hj
  simp [hj]

section
variable (f x y n : Nibble) (kk : Byte) (nnn : Addr)

@[simp] theorem fieldF_encodeNNN : fieldF (encodeNNN f nnn) = f := extractLsb_append_high f nnn

@[simp] theorem fieldNNN_encodeNNN : fieldNNN (encodeNNN f nnn) = nnn :=
  (extractLsb_append_low f nnn 0 12 (by decide)).trans (extractLsb_whole nnn)

@[simp] theorem fieldF_encodeXKK : fieldF (encodeXKK f x kk) = f :=
  (extractLsb_append_part (f ++ x) kk 12 4 (by decide)).trans (extractLsb_append_high f x)

@[simp] theorem fieldX_encodeXKK : fieldX (encodeXKK f x kk) = x :=
  (extractLsb_append_part (f ++ x) kk 8 4 (by decide)).trans
    ((extractLsb_append_low f x 0 4 (by decide)).trans (extractLsb_whole x))

@[simp] theorem fieldKK_encodeXKK : fieldKK (encodeXKK f x kk) = kk :=
  (extractLsb_append_low (f ++ x) kk 0 8 (by decide)).trans (extractLsb_whole kk)

@[simp] theorem fieldF_encodeXYN : fieldF (encodeXYN f x y n) = f :=
  (extractLsb_append_part (f ++ x ++ y) n 12 4 (by decide)).trans
    ((extractLsb_append_part (f ++ x) y 8 4 (by decide)).trans (extractLsb_append_high f x))

@[simp] theorem fieldX_encodeXYN : fieldX (encodeXYN f x y n) = x :=
  (extractLsb_append_part (f ++ x ++ y) n 8 4 (by decide)).trans
    ((extractLsb_append_part (f ++ x) y 4 4 (by decide)).trans
      ((extractLsb_append_low f x 0 4 (by decide)).trans (extractLsb_whole x)))

@[simp] theorem fieldY_encodeXYN : fieldY (encodeXYN f x y n) = y :=
  (extractLsb_append_part (f ++ x ++ y) n 4 4 (by decide)).trans
    ((extractLsb_append_low (f ++ x) y 0 4 (by decide)).trans (extractLsb_whole y))

@[simp] theorem fieldN_encodeXYN : fieldN (encodeXYN f x y n) = n :=
  (extractLsb_append_low (f ++ x ++ y) n 0 4 (by decide)).trans (extractLsb_whole n)

end

/-- Two neighbouring fields make the field they cover. -/
theorem extractLsb_append_extractLsb {w : Nat} (a : BitVec w) (s m n : Nat) :
    a.extractLsb' (s + n) m ++ a.extractLsb' s n = a.extractLsb' s (m + n) := by
  apply BitVec.eq_of_getLsbD_eq
  intro j hj
  rw [BitVec.getLsbD_append]
  by_cases h : j < n
  · simp [h, hj]
  · have h1 : j - n < m := by omega
    have h2 : s + n + (j - n) = s + j := by omega
    simp [h, h1, h2, hj]

/-- The opcode that the two bytes of an opcode make is that opcode (R53). -/
theorem opcodeOfBytes_opcodeBytes (op : Opcode) :
    opcodeOfBytes (op.extractLsb' 8 8) (op.extractLsb' 0 8) = op :=
  (extractLsb_append_extractLsb op 0 8 8).trans (extractLsb_whole op)

/-- An opcode is the concatenation of its fields, in each of the three layouts (R72). -/
theorem encodeNNN_fields (op : Opcode) : encodeNNN (fieldF op) (fieldNNN op) = op :=
  (extractLsb_append_extractLsb op 0 4 12).trans (extractLsb_whole op)

theorem encodeXKK_fields (op : Opcode) : encodeXKK (fieldF op) (fieldX op) (fieldKK op) = op :=
  (congrArg (· ++ fieldKK op) (extractLsb_append_extractLsb op 8 4 4)).trans
    ((extractLsb_append_extractLsb op 0 8 8).trans (extractLsb_whole op))

theorem encodeXYN_fields (op : Opcode) : encodeXYN (fieldF op) (fieldX op) (fieldY op) (fieldN op) = op :=
  (congrArg (· ++ fieldY op ++ fieldN op) (extractLsb_append_extractLsb op 8 4 4)).trans
    ((congrArg (· ++ fieldN op) (extractLsb_append_extractLsb op 4 8 4)).trans
      ((extractLsb_append_extractLsb op 0 12 4).trans (extractLsb_whole op)))

/-! ### The decode tree, family by family (R75) -/

/-- A nibble is one of sixteen values. -/
theorem nibble_cases (f : Nibble) :
    f = 0x0 ∨ f = 0x1 ∨ f = 0x2 ∨ f = 0x3 ∨ f = 0x4 ∨ f = 0x5 ∨ f = 0x6 ∨ f = 0x7 ∨ f = 0x8 ∨ f = 0x9 ∨ f = 0xA ∨
      f = 0xB ∨ f = 0xC ∨ f = 0xD ∨ f = 0xE ∨ f = 0xF := by
  revert f
  decide

section
variable {op : Opcode}

theorem decodeOpcode_family0 (h : fieldF op = 0x0) : decodeOpcode op = .ok (decodeFamily0 op) := by
  unfold decodeOpcode
  rw [h]
  rfl

theorem decodeOpcode_family1 (h : fieldF op = 0x1) : decodeOpcode op = .ok (.jp (fieldNNN op)) := by
  unfold decodeOpcode
  rw [h]
  rfl

theorem decodeOpcode_family2 (h : fieldF op = 0x2) : decodeOpcode op = .ok (.call (fieldNNN op)) := by
  unfold decodeOpcode
  rw [h]
  rfl

theorem decodeOpcode_family3 (h : fieldF op = 0x3) : decodeOpcode op = .ok (.seImm (fieldX op) (fieldKK op)) := by
  unfold decodeOpcode
  rw [h]
  rfl

theorem decodeOpcode_family4 (h : fieldF op = 0x4) : decodeOpcode op = .ok (.sneImm (fieldX op) (fieldKK op)) := by
  unfold decodeOpcode
  rw [h]
  rfl

theorem decodeOpcode_family5 (h : fieldF op = 0x5) : decodeOpcode op = .ok (.seReg (fieldX op) (fieldY op) (fieldN op)) := by
  unfold decodeOpcode
  rw [h]
  rfl

theorem decodeOpcode_family6 (h : fieldF op = 0x6) : decodeOpcode op = .ok (.ldImm (fieldX op) (fieldKK op)) := by
  unfold decodeOpcode
  rw [h]
  rfl

theorem decodeOpcode_family7 (h : fieldF op = 0x7) : decodeOpcode op = .ok (.addImm (fieldX op) (fieldKK op)) := by
  unfold decodeOpcode
  rw [h]
  rfl

theorem decodeOpcode_family8 (h : fieldF op = 0x8) : decodeOpcode op = decodeFamily8 op := by
  unfold decodeOpcode
  rw [h]
  rfl

theorem decodeOpcode_family9 (h : fieldF op = 0x9) : decodeOpcode op = .ok (.sneReg (fieldX op) (fieldY op) (fieldN op)) := by
  unfold decodeOpcode
  rw [h]
  rfl

theorem decodeOpcode_familyA (h : fieldF op = 0xA) : decodeOpcode op = .ok (.ldI (fieldNNN op)) := by
  unfold decodeOpcode
  rw [h]
  rfl

theorem decodeOpcode_familyB (h : fieldF op = 0xB) : decodeOpcode op = .ok (.jpV0 (fieldNNN op)) := by
  unfold decodeOpcode
  rw [h]
  rfl

theorem decodeOpcode_familyC (h : fieldF op = 0xC) : decodeOpcode op = .ok (.rnd (fieldX op) (fieldKK op)) := by
  unfold decodeOpcode
  rw [h]
  rfl

theorem decodeOpcode_familyD (h : fieldF op = 0xD) : decodeOpcode op = .ok (.drw (fieldX op) (fieldY op) (fieldN op)) := by
  unfold decodeOpcode
  rw [h]
  rfl

theorem decodeOpcode_familyE (h : fieldF op = 0xE) : decodeOpcode op = decodeFamilyE op := by
  unfold decodeOpcode
  rw [h]
  rfl

theorem decodeOpcode_familyF (h : fieldF op = 0xF) : decodeOpcode op = decodeFamilyF op := by
  unfold decodeOpcode
  rw [h]
  rfl

end

end Sys2Proof
end

