-- ==== Sys2Proof/Laws/PerInstr.lean ====
section
/-! SUPPORT. Per instruction: its encoding matches its row of spec/opcode_table.json, the fixed bits having the row's
values. -/

namespace Sys2Proof.Laws.MatchesTable

/-- The encoding of the instruction has the fixed bits of its row of the opcode table. -/
def Statement (i : Instr) : Prop :=
  encode i &&& i.tableRow.mask = i.tableRow.pattern

/-- Masking a concatenation masks its parts. -/
theorem append_and {m n : Nat} {a c e : BitVec m} {b d g : BitVec n} (h : a &&& c = e) (h' : b &&& d = g) :
    (a ++ b) &&& (c ++ d) = e ++ g := by
  subst h h'
  apply BitVec.eq_of_getLsbD_eq
  intro j hj
  by_cases hl : j < n <;> simp [BitVec.getLsbD_append, hl]

theorem keep (f : Nibble) : f &&& 0xF = f := BitVec.and_allOnes

theorem keepByte (b : Byte) : b &&& 0xFF = b := BitVec.and_allOnes

theorem drop {n : Nat} (a : BitVec n) : a &&& 0 = 0 := BitVec.and_zero

/-- The fixed bits of format NNN: the family. -/
theorem fixed_NNN (f : Nibble) (nnn : Addr) : encodeNNN f nnn &&& 0xF000 = encodeNNN f 0 :=
  append_and (keep f) (drop nnn)

/-- The family of a format XKK opcode. -/
theorem fixed_XKK_family (f x : Nibble) (kk : Byte) : encodeXKK f x kk &&& 0xF000 = encodeXKK f 0 0 :=
  append_and (append_and (keep f) (drop x)) (drop kk)

/-- The fixed bits of format XS: the family and the low byte. -/
theorem fixed_XS (f x : Nibble) (kk : Byte) : encodeXKK f x kk &&& 0xF0FF = encodeXKK f 0 kk :=
  append_and (append_and (keep f) (drop x)) (keepByte kk)

/-- The family of an opcode of format XY or XYN. -/
theorem fixed_XYN_family (f x y n : Nibble) : encodeXYN f x y n &&& 0xF000 = encodeXYN f 0 0 0 :=
  append_and (append_and (append_and (keep f) (drop x)) (drop y)) (drop n)

/-- The fixed bits of format XYS: the family and the low nibble. -/
theorem fixed_XYS (f x y n : Nibble) : encodeXYN f x y n &&& 0xF00F = encodeXYN f 0 0 n :=
  append_and (append_and (append_and (keep f) (drop x)) (drop y)) (keep n)

theorem cls : Statement .cls := rfl
theorem ret : Statement .ret := rfl
theorem sys (nnn : Addr) : Statement (.sys nnn) := fixed_NNN 0x0 nnn
theorem jp (nnn : Addr) : Statement (.jp nnn) := fixed_NNN 0x1 nnn
theorem call (nnn : Addr) : Statement (.call nnn) := fixed_NNN 0x2 nnn
theorem seImm (x : Nibble) (kk : Byte) : Statement (.seImm x kk) := fixed_XKK_family 0x3 x kk
theorem sneImm (x : Nibble) (kk : Byte) : Statement (.sneImm x kk) := fixed_XKK_family 0x4 x kk
theorem seReg (x : Nibble) (y : Nibble) (n : Nibble) : Statement (.seReg x y n) := fixed_XYN_family 0x5 x y n
theorem ldImm (x : Nibble) (kk : Byte) : Statement (.ldImm x kk) := fixed_XKK_family 0x6 x kk
theorem addImm (x : Nibble) (kk : Byte) : Statement (.addImm x kk) := fixed_XKK_family 0x7 x kk
theorem ldReg (x : Nibble) (y : Nibble) : Statement (.ldReg x y) := fixed_XYS 0x8 x y 0x0
theorem orReg (x : Nibble) (y : Nibble) : Statement (.orReg x y) := fixed_XYS 0x8 x y 0x1
theorem andReg (x : Nibble) (y : Nibble) : Statement (.andReg x y) := fixed_XYS 0x8 x y 0x2
theorem xorReg (x : Nibble) (y : Nibble) : Statement (.xorReg x y) := fixed_XYS 0x8 x y 0x3
theorem addReg (x : Nibble) (y : Nibble) : Statement (.addReg x y) := fixed_XYS 0x8 x y 0x4
theorem subReg (x : Nibble) (y : Nibble) : Statement (.subReg x y) := fixed_XYS 0x8 x y 0x5
theorem shr (x : Nibble) (y : Nibble) : Statement (.shr x y) := fixed_XYS 0x8 x y 0x6
theorem subn (x : Nibble) (y : Nibble) : Statement (.subn x y) := fixed_XYS 0x8 x y 0x7
theorem shl (x : Nibble) (y : Nibble) : Statement (.shl x y) := fixed_XYS 0x8 x y 0xE
theorem sneReg (x : Nibble) (y : Nibble) (n : Nibble) : Statement (.sneReg x y n) := fixed_XYN_family 0x9 x y n
theorem ldI (nnn : Addr) : Statement (.ldI nnn) := fixed_NNN 0xA nnn
theorem jpV0 (nnn : Addr) : Statement (.jpV0 nnn) := fixed_NNN 0xB nnn
theorem rnd (x : Nibble) (kk : Byte) : Statement (.rnd x kk) := fixed_XKK_family 0xC x kk
theorem drw (x : Nibble) (y : Nibble) (n : Nibble) : Statement (.drw x y n) := fixed_XYN_family 0xD x y n
theorem skp (x : Nibble) : Statement (.skp x) := fixed_XS 0xE x 0x9E
theorem sknp (x : Nibble) : Statement (.sknp x) := fixed_XS 0xE x 0xA1
theorem ldVxDt (x : Nibble) : Statement (.ldVxDt x) := fixed_XS 0xF x 0x07
theorem ldVxKey (x : Nibble) : Statement (.ldVxKey x) := fixed_XS 0xF x 0x0A
theorem ldDtVx (x : Nibble) : Statement (.ldDtVx x) := fixed_XS 0xF x 0x15
theorem ldStVx (x : Nibble) : Statement (.ldStVx x) := fixed_XS 0xF x 0x18
theorem addIVx (x : Nibble) : Statement (.addIVx x) := fixed_XS 0xF x 0x1E
theorem ldFVx (x : Nibble) : Statement (.ldFVx x) := fixed_XS 0xF x 0x29
theorem ldBVx (x : Nibble) : Statement (.ldBVx x) := fixed_XS 0xF x 0x33
theorem storeRegs (x : Nibble) : Statement (.storeRegs x) := fixed_XS 0xF x 0x55
theorem loadRegs (x : Nibble) : Statement (.loadRegs x) := fixed_XS 0xF x 0x65

end Sys2Proof.Laws.MatchesTable
end

