-- ==== Sys2Proof/Tests/Slice0.lean ====
section
/-! SUPPORT. Tests. Every expected value is taken from spec/95_test_vectors.md, or worked out by hand from the rule that
the test's comment names. -/

namespace Sys2Proof.Tests

open Sys2Proof.Machine

/-! ### Well-formedness: the ill-formed terms are refused (R103) -/

theorem test_wf_sys_refuses_cls : (Instr.sys 0x0E0).wellFormed = false := by decide
theorem test_wf_sys_refuses_ret : (Instr.sys 0x0EE).wellFormed = false := by decide
theorem test_wf_sys_accepts : (Instr.sys 0x123).wellFormed = true := by decide

/-! ### Decoding: words written out bit by bit from the field layout of R72 and the tree of R75 -/

theorem test_decode_family0 :
    decodeTableWord 16 0b0000000011100000 = some .cls ∧ decodeTableWord 16 0b0000000011101110 = some .ret
      ∧ decodeTableWord 16 0b0000000111100000 = some (.sys 0x1E0) ∧ decodeTableWord 16 0 = some (.sys 0) := by decide

theorem test_decode_families_1_to_5 :
    decodeTableWord 16 0b0001101010111100 = some (.jp 0xABC) ∧ decodeTableWord 16 0b0010001100000000 = some (.call 0x300)
      ∧ decodeTableWord 16 0b0011101001000010 = some (.seImm 0xA 0x42)
      ∧ decodeTableWord 16 0b0100101001000010 = some (.sneImm 0xA 0x42)
      ∧ decodeTableWord 16 0b0101000100101111 = some (.seReg 1 2 0xF) := by decide

theorem test_decode_families_6_and_7 :
    decodeTableWord 16 0b0110101001000010 = some (.ldImm 0xA 0x42)
      ∧ decodeTableWord 16 0b0111000111111111 = some (.addImm 1 0xFF) := by decide

theorem test_decode_family8 :
    decodeTableWord 16 0b1000000100100000 = some (.ldReg 1 2) ∧ decodeTableWord 16 0b1000000100100001 = some (.orReg 1 2)
      ∧ decodeTableWord 16 0b1000000100100010 = some (.andReg 1 2)
      ∧ decodeTableWord 16 0b1000000100100011 = some (.xorReg 1 2)
      ∧ decodeTableWord 16 0b1000000100100100 = some (.addReg 1 2)
      ∧ decodeTableWord 16 0b1000000100100101 = some (.subReg 1 2)
      ∧ decodeTableWord 16 0b1000001101110110 = some (.shr 3 7)
      ∧ decodeTableWord 16 0b1000000100100111 = some (.subn 1 2)
      ∧ decodeTableWord 16 0b1000010000001110 = some (.shl 4 0) := by decide

theorem test_decode_families_9_to_D :
    decodeTableWord 16 0b1001000100101111 = some (.sneReg 1 2 0xF)
      ∧ decodeTableWord 16 0b1010001011110000 = some (.ldI 0x2F0)
      ∧ decodeTableWord 16 0b1011001100000000 = some (.jpV0 0x300)
      ∧ decodeTableWord 16 0b1100001100001111 = some (.rnd 3 0x0F)
      ∧ decodeTableWord 16 0b1101000000010101 = some (.drw 0 1 5) := by decide

theorem test_decode_families_E_and_F :
    decodeTableWord 16 0b1110001010011110 = some (.skp 2) ∧ decodeTableWord 16 0b1110001010100001 = some (.sknp 2)
      ∧ decodeTableWord 16 0b1111010100000111 = some (.ldVxDt 5)
      ∧ decodeTableWord 16 0b1111001100001010 = some (.ldVxKey 3)
      ∧ decodeTableWord 16 0b1111000100010101 = some (.ldDtVx 1)
      ∧ decodeTableWord 16 0b1111000100011000 = some (.ldStVx 1)
      ∧ decodeTableWord 16 0b1111001000011110 = some (.addIVx 2)
      ∧ decodeTableWord 16 0b1111000000101001 = some (.ldFVx 0)
      ∧ decodeTableWord 16 0b1111000000110011 = some (.ldBVx 0)
      ∧ decodeTableWord 16 0b1111001001010101 = some (.storeRegs 2)
      ∧ decodeTableWord 16 0b1111001001100101 = some (.loadRegs 2) := by decide

/-- Illegal opcodes of R76 are refused. -/
theorem test_decode_illegal :
    decodeTableWord 16 0x8128 = none ∧ decodeTableWord 16 0x812F = none ∧ decodeTableWord 16 0xE200 = none
      ∧ decodeTableWord 16 0xF000 = none ∧ decodeTableWord 16 0xF0FF = none := by decide

/-- One byte is no instruction (R71), and the decoder leaves the bytes after an instruction. -/
theorem test_decode_bytes :
    (match decode [0x12] with | .error .truncated => true | _ => false) = true
      ∧ (match decode [0x12, 0x34, 0x56] with | .ok (i, rest) => i == .jp 0x234 && rest == [0x56] | _ => false) = true := by
  decide

theorem test_encode_bytes : encodeBytes (.drw 0xA 0xB 0xC) = [0xDA, 0xBC] := by decide

/-! ### One step of one instruction at 0x200 -/

/-- One step of the instruction `op` from the reset state prepared by `setup` answers a next state that passes. -/
def runs (op : Nat) (setup : State → State) (passes : State → Bool) : Bool :=
  match step ((setup State.reset).withFetchWord 16 op) with
  | .next t => passes t
  | .fault _ => false
  | .refused _ => false

/-- No preparation. -/
def plain (s : State) : State := s

/-- The cells that are set, in a corner of the grid `w` wide and `h` high. -/
def setCells (g : Grid) (w h : Nat) : List (Nat × Nat) :=
  (List.range h).flatMap fun y => ((List.range w).filter fun x => g.cell x y).map fun x => (x, y)

-- 95_test_vectors 2.1
theorem test_cls : runs 0x00E0 (fun s => { s with grid := (s.grid.toggle 0 0).toggle 63 31 })
    (fun t => !t.grid.cell 0 0 && !t.grid.cell 63 31 && t.pc == 0x202) = true := by decide
theorem test_cls_only_full_opcode : runs 0x01E0 (fun s => { s with grid := s.grid.toggle 0 0 })
    (fun t => t.grid.cell 0 0 && t.pc == 0x202) = true := by decide
theorem test_ret : runs 0x00EE (fun s => { s with stack := [0x30A, 0x204] })
    (fun t => t.pc == 0x30A && t.stack == [0x204]) = true := by decide
theorem test_ret_underflow : runs 0x00EE plain
    (fun t => t.fault == some ⟨.stackUnderflow, 0x200, 0x00EE⟩ && t.pc == 0x202) = true := by decide
theorem test_sys : runs 0x0000 plain (fun t => t.pc == 0x202) = true := by decide
theorem test_sys_wraps : runs 0x0000 (fun s => s.setPc 0xFFE) (fun t => t.pc == 0x000) = true := by decide
theorem test_jp : runs 0x1ABC plain (fun t => t.pc == 0xABC) = true := by decide
theorem test_jp_odd : runs 0x1201 plain (fun t => t.pc == 0x201) = true := by decide
theorem test_call_wraps : runs 0x2300 (fun s => s.setPc 0xFFE)
    (fun t => t.pc == 0x300 && t.stack == [0x000]) = true := by decide
theorem test_call_overflow : runs 0x2300
    (fun s => { s with params := { s.params with stackCap := some 2 }, stack := [0x302, 0x202] })
    (fun t => t.fault == some ⟨.stackOverflow, 0x200, 0x2300⟩ && t.stack == [0x302, 0x202] && t.pc == 0x202) = true := by
  decide
theorem test_se_imm : runs 0x3A42 (fun s => (s.setReg 0xA 0x42).setPc 0xFFC) (fun t => t.pc == 0x000) = true := by decide
theorem test_se_imm_no_skip : runs 0x3A42 (fun s => s.setReg 0xA 0x43) (fun t => t.pc == 0x202) = true := by decide
theorem test_sne_imm : runs 0x4A42 (fun s => s.setReg 0xA 0x43) (fun t => t.pc == 0x204) = true := by decide
theorem test_sne_imm_no_skip : runs 0x4A42 (fun s => s.setReg 0xA 0x42) (fun t => t.pc == 0x202) = true := by decide
theorem test_se_reg : runs 0x5330 (fun s => s.setReg 3 9) (fun t => t.pc == 0x204) = true := by decide
theorem test_se_reg_low_nibble : runs 0x512F (fun s => (s.setReg 1 7).setReg 2 8)
    (fun t => t.pc == 0x202 && t.fault == none) = true := by decide

-- 95_test_vectors 2.2
theorem test_ld_imm : runs 0x6A42 plain (fun t => t.reg 0xA == 0x42) = true := by decide
theorem test_add_imm_no_flag : runs 0x71FF (fun s => s.setReg 1 1)
    (fun t => t.reg 1 == 0 && t.reg vf == 0) = true := by decide
theorem test_add_imm_vf : runs 0x7F01 (fun s => s.setReg vf 0xFF) (fun t => t.reg vf == 0) = true := by decide
theorem test_ld_reg : runs 0x8120 (fun s => s.setReg 2 7) (fun t => t.reg 1 == 7 && t.reg 2 == 7) = true := by decide
theorem test_or : runs 0x8121 (fun s => (s.setReg 1 0x0C).setReg 2 0x0A) (fun t => t.reg 1 == 0x0E) = true := by decide
theorem test_and : runs 0x8122 (fun s => (s.setReg 1 0x0C).setReg 2 0x0A) (fun t => t.reg 1 == 0x08) = true := by decide
theorem test_xor : runs 0x8123 (fun s => (s.setReg 1 0x0C).setReg 2 0x0A) (fun t => t.reg 1 == 0x06) = true := by decide
theorem test_xor_self : runs 0x8113 (fun s => s.setReg 1 0x5A) (fun t => t.reg 1 == 0x00) = true := by decide
theorem test_add : runs 0x8124 (fun s => (s.setReg 1 0x80).setReg 2 0x80)
    (fun t => t.reg 1 == 0 && t.reg vf == 1) = true := by decide
theorem test_add_vf_destination : runs 0x8F24 (fun s => (s.setReg vf 0xF0).setReg 2 0x20)
    (fun t => t.reg vf == 0x10) = true := by decide
theorem test_sub_strict : runs 0x8125 (fun s => (s.setReg 1 5).setReg 2 5)
    (fun t => t.reg 1 == 0 && t.reg vf == 0) = true := by decide
theorem test_sub_vf_operand : runs 0x81F5 (fun s => (s.setReg 1 5).setReg vf 3)
    (fun t => t.reg 1 == 4 && t.reg vf == 1) = true := by decide
theorem test_shr : runs 0x8376 (fun s => (s.setReg 3 5).setReg 7 0xFF)
    (fun t => t.reg 3 == 2 && t.reg vf == 1 && t.reg 7 == 0xFF) = true := by decide
theorem test_shr_vf : runs 0x8F06 (fun s => s.setReg vf 0xFF) (fun t => t.reg vf == 0) = true := by decide
theorem test_subn : runs 0x8127 (fun s => (s.setReg 1 3).setReg 2 0xA)
    (fun t => t.reg 1 == 7 && t.reg vf == 1) = true := by decide
theorem test_subn_vf_operand : runs 0x81F7 (fun s => (s.setReg 1 3).setReg vf 0xA)
    (fun t => t.reg 1 == 0xFE && t.reg vf == 1) = true := by decide
theorem test_shl : runs 0x840E (fun s => s.setReg 4 0xC1)
    (fun t => t.reg 4 == 0x82 && t.reg vf == 0x80) = true := by decide
theorem test_shl_vf : runs 0x8F0E (fun s => s.setReg vf 0xFF) (fun t => t.reg vf == 0) = true := by decide
theorem test_illegal : runs 0x8128 plain
    (fun t => t.fault == some ⟨.unrecognizedInstruction, 0x200, 0x8128⟩ && t.pc == 0x202) = true := by decide

-- 95_test_vectors 2.3
theorem test_sne_reg : runs 0x912F (fun s => (s.setReg 1 1).setReg 2 2) (fun t => t.pc == 0x204) = true := by decide
theorem test_sne_reg_no_skip : runs 0x9120 (fun s => (s.setReg 1 2).setReg 2 2) (fun t => t.pc == 0x202) = true := by
  decide
theorem test_ld_i : runs 0xA2F0 (fun s => s.setI 0x1234) (fun t => t.i == 0x02F0) = true := by decide
theorem test_jp_v0 : runs 0xBFFF (fun s => s.setReg 0 0xFF) (fun t => t.pc == 0x0FE) = true := by decide
theorem test_jp_v0_wraps : runs 0xBFFF (fun s => s.setReg 0 0x01) (fun t => t.pc == 0x000) = true := by decide

/-- C300: the mask 0x00 gives 0x00 for any draw, and the draw is taken (R163). -/
theorem test_rnd_mask (s : State) :
    exec (.rnd 3 0x00) s = .next { s.setReg 3 0x00 with draws := s.draws + 1 } := by
  simp [exec, execRnd, State.drawByte, State.setReg]

/-- C30F: the bits that are 0 in the mask are 0 in the result (R163). -/
theorem test_rnd_reads_the_draw (s : State) :
    ∃ t, exec (.rnd 3 0x0F) s = .next t ∧ t.reg 3 = Config.randomByte s.draws &&& 0x0F :=
  ⟨_, rfl, by simp [State.drawByte]⟩

-- 95_test_vectors 2.4
/-- Glyph 0 at the origin: `I = 0x000`, V0 = V1 = 0. -/
theorem test_drw_glyph : runs 0xD015 (fun s => s.writeBytes 0 [0xF0, 0x90, 0x90, 0x90, 0xF0])
    (fun t => setCells t.grid 8 8 == [(0, 0), (1, 0), (2, 0), (3, 0), (0, 1), (3, 1), (0, 2), (3, 2), (0, 3), (3, 3),
      (0, 4), (1, 4), (2, 4), (3, 4)] && t.reg vf == 0) = true := by decide
theorem test_drw_collision_and_wrap : runs 0xD121
    (fun s => { ((s.setReg 1 60).setReg 2 63).setI 0x300 |>.memWrite 0x300 0x81 with grid := s.grid.toggle 60 31 })
    (fun t => !t.grid.cell 60 31 && t.grid.cell 3 31 && t.reg vf == 1) = true := by decide
theorem test_skp : runs 0xE29E (fun s => { s.setReg 2 5 with keys := s.keys.setKey 5 true })
    (fun t => t.pc == 0x204) = true := by decide
theorem test_skp_no_such_key : runs 0xE29E (fun s => { s.setReg 2 0x10 with keys := Vector.replicate 16 true })
    (fun t => t.pc == 0x202) = true := by decide
theorem test_sknp : runs 0xE2A1 (fun s => { s.setReg 2 5 with keys := s.keys.setKey 5 true })
    (fun t => t.pc == 0x202) = true := by decide
theorem test_sknp_no_such_key : runs 0xE2A1 (fun s => { s.setReg 2 0x10 with keys := Vector.replicate 16 true })
    (fun t => t.pc == 0x204) = true := by decide

-- 95_test_vectors 2.5
theorem test_ld_vx_dt : runs 0xF507 (fun s => { s with dt := 0x3C }) (fun t => t.reg 5 == 0x3C) = true := by decide
theorem test_ld_vx_key : runs 0xF30A (fun s => s.setReg 3 9)
    (fun t => t.paused && t.waitReg == 3 && t.pc == 0x202 && t.reg 3 == 9) = true := by decide
theorem test_ld_dt_vx : runs 0xF115 (fun s => s.setReg 1 0x3C) (fun t => t.dt == 0x3C) = true := by decide
theorem test_ld_st_vx : runs 0xF118 (fun s => s.setReg 1 5) (fun t => t.st == 5) = true := by decide
theorem test_add_i : runs 0xF21E (fun s => (s.setReg 2 2).setI 0x0FFF) (fun t => t.i == 0x1001) = true := by decide
theorem test_add_i_wraps : runs 0xF21E (fun s => (s.setReg 2 1).setI 0xFFFF)
    (fun t => t.i == 0 && t.reg vf == 0) = true := by decide
theorem test_ld_f : runs 0xF029 (fun s => s.setReg 0 0x0A) (fun t => t.i == 0x0032) = true := by decide
theorem test_ld_f_no_mask : runs 0xF029 (fun s => s.setReg 0 0xFF) (fun t => t.i == 0x04FB) = true := by decide
theorem test_ld_b : runs 0xF033 (fun s => (s.setReg 0 0xEA).setI 0x300)
    (fun t => t.memRead 0x300 == 2 && t.memRead 0x301 == 3 && t.memRead 0x302 == 4 && t.i == 0x300) = true := by decide
theorem test_ld_b_wraps : runs 0xF033 (fun s => (s.setReg 0 7).setI 0xFFE)
    (fun t => t.memRead 0xFFE == 0 && t.memRead 0xFFF == 0 && t.memRead 0x000 == 7) = true := by decide
theorem test_store_regs : runs 0xF255
    (fun s => (((s.setReg 0 1).setReg 1 2).setReg 2 3 |>.setReg 3 9).setI 0x300)
    (fun t => t.mem == [(0x200, 0xF2), (0x201, 0x55), (0x300, 1), (0x301, 2), (0x302, 3)] && t.i == 0x300) = true := by
  decide
theorem test_store_regs_high_i : runs 0xF055 (fun s => (s.setReg 0 0xAA).setI 0x1FFF)
    (fun t => t.memRead 0xFFF == 0xAA && t.i == 0x1FFF) = true := by decide
theorem test_load_regs : runs 0xF265
    (fun s => ((s.setReg 3 9).setI 0x300).writeBytes 0x300 [1, 2, 3, 4])
    (fun t => t.reg 0 == 1 && t.reg 1 == 2 && t.reg 2 == 3 && t.reg 3 == 9 && t.i == 0x300) = true := by decide
theorem test_load_regs_all : runs 0xFF65 (fun s => (s.setI 0x300).writeBytes 0x30E [0x1E, 0x1F])
    (fun t => t.reg 0xE == 0x1E && t.reg vf == 0x1F) = true := by decide

/-! ### The Scheduler, the wait and the host (95_test_vectors 2.6) -/

/-- A state at the last step of a tick. -/
def lastStep (s : State) : State := { s with stepsLeft := 1 }

theorem test_tick_end_stops_tone : runs 0x0000 (fun s => lastStep { s with dt := 5, st := 1 })
    (fun t => t.dt == 4 && t.st == 0 && t.outputs == [.present, .toneStop] && t.stepsLeft == 10) = true := by decide
theorem test_tick_end_starts_tone : runs 0xF118 (fun s => lastStep (s.setReg 1 2))
    (fun t => t.dt == 0 && t.st == 1 && t.outputs == [.present, .toneStart 440]) = true := by decide
theorem test_tick_end_paused : runs 0xF30A (fun s => lastStep { s with dt := 5, st := 5 })
    (fun t => t.dt == 5 && t.st == 5 && t.outputs == [.present, .toneStart 440]) = true := by decide
theorem test_tick_ends_at_fault : runs 0x8008 (fun s => { s with dt := 5, stepsLeft := 8 })
    (fun t => t.dt == 5 && t.outputs == [] && t.stepsLeft == 10 && t.halted) = true := by decide

/-- The next state's check, for a step from a state as it stands. -/
def moves (s : State) (passes : State → Bool) : Bool :=
  match step s with
  | .next t => passes t
  | .fault _ => false
  | .refused _ => false

/-- IPT = 0: a tick with no step (D24). -/
theorem test_tick_ipt_zero :
    moves { State.reset with params := { State.reset.params with ipt := 0 }, stepsLeft := 0, dt := 5 }
      (fun t => t.dt == 4 && t.pc == 0x200 && t.outputs == [.present, .toneStop]) = true := by decide
theorem test_key_press_ends_wait :
    moves { State.reset with paused := true, waitReg := vf, inputs := [.event (.keyPress 0xC)] }
      (fun t => t.reg vf == 0x0C && !t.paused && t.keys.isPressed 0xC) = true := by decide
theorem test_key_release_keeps_wait :
    moves { State.reset with paused := true, waitReg := 3, keys := Vector.replicate 16 true,
                             inputs := [.event (.keyRelease 3)] }
      (fun t => t.paused && t.reg 3 == 0 && !t.keys.isPressed 3 && t.keys.isPressed 4) = true := by decide
theorem test_reset_leaves_halt :
    moves { State.reset with fault := some ⟨.stackUnderflow, 0x200, 0x00EE⟩, pc := 0x202, stepsLeft := 3,
                             grid := Grid.clear.toggle 1 1, inputs := [.event .reset] }
      (fun t => t.fault == none && t.pc == 0x200 && t.grid.cell 1 1) = true := by decide
theorem test_reset_inside_tick_refused :
    (match step { State.reset with stepsLeft := 3, inputs := [.event .reset] } with
      | .refused .commandInsideTick => true
      | _ => false) = true := by decide
theorem test_halted_does_nothing :
    moves { State.reset with fault := some ⟨.stackUnderflow, 0x200, 0x00EE⟩, dt := 5 }
      (fun t => t.dt == 5 && t.pc == 0x200 && t.outputs == []) = true := by decide
theorem test_load_program :
    moves { State.reset with inputs := [.event (.loadProgram [0x60, 0x05])] }
      (fun t => t.mem == [(0x200, 0x60), (0x201, 0x05)]) = true := by decide

/-- The address of glyph B and its bytes in the default font (R283): E0 90 E0 90 E0 at 0x037. -/
theorem test_font_glyph_b : ((fontBytes Config.defaultFont).drop 0x037).take 5 = [0xE0, 0x90, 0xE0, 0x90, 0xE0] := by decide
theorem test_font_length : (fontBytes Config.defaultFont).length = 80 := by decide

/-- The launch state of image 60 05: glyph B at 0x037, the image at 0x200, zero after it (R285, R283). -/
def launched : State := State.launch Config.Params.default Grid.clear Keys.released [0x60, 0x05]
theorem test_launch_glyph : launched.memRead 0x037 = 0xE0 :=
  (State.memRead_writeBytes_other _ _ _ _ (by decide)).trans
    (State.memRead_loadFont_glyph _ 0xB 0 (by decide) (by decide))
theorem test_launch_zero : launched.memRead 0x050 = 0x00 ∧ launched.memRead 0x202 = 0x00 :=
  ⟨(State.memRead_writeBytes_other _ _ _ _ (by decide)).trans (State.memRead_loadFont_other _ _ (by decide)),
    (State.memRead_writeBytes_other _ _ _ _ (by decide)).trans (State.memRead_loadFont_other _ _ (by decide))⟩
/-- The first instruction executed is the one at 0x200. -/
theorem test_launch_fetch : launched.fetchOpcode = 0x6005 := by
  have h0 : launched.memRead 0x200 = 0x60 := State.memRead_writeBytes_at _ _ _ (by decide) 0 (by decide) _ rfl
  have h1 : launched.memRead 0x201 = 0x05 := State.memRead_writeBytes_at _ _ _ (by decide) 1 (by decide) _ rfl
  have hpc : launched.pc = 0x200 := by
    rw [launched, State.launch_eq]
    rfl
  show opcodeOfBytes (launched.memRead launched.pc.toNat) (launched.memRead (launched.pc.toNat + 1)) = _
  rw [hpc]
  exact (congrArg₂ opcodeOfBytes h0 h1).trans (by decide)

/-! ### Reset -/

theorem test_reset_mem_wf : State.reset.mem.wf = true := by decide
theorem test_reset_pc : State.reset.pc = 0x200 := by decide
/-- Nothing stands before the first `step()` after reset. -/
theorem test_reset_ready : State.reset.Ready := by
  refine ⟨?_, ?_, ?_, ?_⟩ <;> decide

/-! ### Witnesses: for each statement with hypotheses, a state and operands that meet all of them together, one for each
clause -/

/-- The reset state with a two-byte instruction at 0x200. -/
def holding (op : Nat) : State := State.reset.withFetchWord 16 op

/-- The reset state with outside events to come. -/
def expecting (es : List HostEvent) : State := { State.reset with inputs := es.map .event }

/-- A halted state. -/
def haltedState : State := { holding 0x00EE with pc := 0x202, fault := some ⟨.stackUnderflow, 0x200, 0x00EE⟩ }

/-- A state waiting for a key with target V3. -/
def waiting : State := { State.reset with paused := true, waitReg := 3 }

/-- A state with a cap of two entries and a stack that holds two. -/
def cappedState : State := { State.reset with params := { State.reset.params with stackCap := some 2 }, stack := [0x302, 0x202] }

-- Encoding
theorem witness_DecodeEncodeRoundTrip : (Instr.sys 0xFFF).wellFormed = true ∧ (Instr.drw 0xF 0x0 0xF).wellFormed = true := by
  decide
theorem witness_EncodeDecodeRoundTrip : decodeOpcode 0x01E0 = .ok (.sys 0x1E0) ∧ decodeOpcode 0xFF65 = .ok (.loadRegs 0xF) :=
  ⟨rfl, rfl⟩
theorem witness_IllegalOpcodesExactly :
    decodeOpcode 0x8AB8 = .error (.unrecognizedInstruction 0x8AB8) ∧ decodeOpcode 0xE19F = .error (.unrecognizedInstruction 0xE19F)
      ∧ decodeOpcode 0xFF66 = .error (.unrecognizedInstruction 0xFF66)
      ∧ (match decodeOpcode 0x8ABE with | .ok _ => true | .error _ => false) = true :=
  ⟨rfl, rfl, rfl, rfl⟩

-- The step
theorem ready_holding (op : Nat) : (holding op).Ready := by
  refine ⟨rfl, rfl, rfl, ?_⟩
  show 0 < 10
  decide
theorem witness_StepRunsDecodedInstruction :
    (holding 0x6A42).Ready ∧ decodeOpcode (holding 0x6A42).fetchOpcode = .ok (.ldImm 0xA 0x42) :=
  ⟨ready_holding _, rfl⟩
/-- A quiet boundary before a key press. -/
def quietState : State := { holding 0x6A42 with inputs := [.quiet, .event (.keyPress 1)] }
theorem witness_StepRunsDecodedInstruction_quiet :
    decodeOpcode quietState.fetchOpcode = .ok (.ldImm 0xA 0x42) ∧ quietState.inputs = .quiet :: [.event (.keyPress 1)] ∧
    quietState.fault = none ∧ quietState.paused = false ∧ 0 < quietState.stepsLeft :=
  ⟨rfl, rfl, rfl, rfl, by decide⟩
theorem witness_ExecutorStepContract :
    haltedState.fault ≠ none ∧ (waiting.fault = none ∧ waiting.paused = true) ∧
    ((holding 0x6A42).fault = none ∧ (holding 0x6A42).paused = false ∧
      decodeOpcode (holding 0x6A42).fetchOpcode = .ok (.ldImm 0xA 0x42)) ∧
    decodeOpcode (holding 0x8128).fetchOpcode = .error (.unrecognizedInstruction 0x8128) :=
  ⟨by decide, ⟨rfl, rfl⟩, ⟨rfl, rfl, rfl⟩, rfl⟩
theorem witness_EveryStepAnswersNext : State.reset.inputs = [] := rfl

-- Fatal errors
theorem witness_HaltedDoesNothing : haltedState.fault ≠ none ∧ haltedState.inputs = [] := ⟨by decide, rfl⟩
theorem witness_OnlyResetLeavesHalt : haltedState.fault ≠ none ∧ (∃ t, step haltedState = .next t) ∧
    ∃ t, step { haltedState with inputs := [.event .reset] } = .next t ∧ t.fault = none :=
  ⟨by decide, ⟨_, rfl⟩, ⟨_, rfl, rfl⟩⟩
theorem witness_FatalErrorIsPreciseAndEndsTick :
    (holding 0x00EE).Ready ∧ ∃ t, executorStep (holding 0x00EE) = .next t ∧ t.fault ≠ none :=
  ⟨ready_holding _, _, rfl, by decide⟩
theorem witness_InstructionsThatRaise :
    (State.reset.fault = none ∧ ∃ t, exec .ret State.reset = .next t ∧ t.fault = some ⟨.stackUnderflow, 0x1FE, 0x00EE⟩) ∧
    (cappedState.fault = none ∧
      ∃ t, exec (.call 0x300) cappedState = .next t ∧ t.fault = some ⟨.stackOverflow, 0x1FE, 0x2300⟩) :=
  ⟨⟨rfl, _, rfl, rfl⟩, rfl, _, rfl, rfl⟩

-- Invariants
theorem witness_StepKeepsMemoryCanonical : (holding 0xF255).mem.wf = true ∧ ∃ t, step (holding 0xF255) = .next t :=
  ⟨by decide, _, rfl⟩
theorem inv_of_running (s : State) (hf : s.fault = none) (hc : s.params.stackCap = none) (hn : s.stepsLeft = 10)
    (hi : s.params.ipt = 10) : s.Inv := by
  refine ⟨?_, ?_, ?_⟩
  · rw [State.ScheduleInv, hn, hi]
    decide
  · intro cap h
    rw [hc] at h
    cases h
  · intro f h
    rw [hf] at h
    cases h
theorem witness_StepKeepsInv : (holding 0x00EE).Inv ∧ ∃ t, step (holding 0x00EE) = .next t ∧ t.fault ≠ none :=
  ⟨inv_of_running _ rfl rfl rfl rfl, _, rfl, by decide⟩
theorem witness_ParametersAreFixed : ∃ t, step (expecting [.loadFont]) = .next t := ⟨_, rfl⟩

-- What instructions write
theorem witness_RegisterWriters :
    (∃ t, exec (.addReg 1 2) State.reset = .next t) ∧ (Instr.addReg 1 2).destination 3 = false ∧ (3 : Nibble) ≠ vf ∧
    (∃ t, exec (.ldImm 1 2) State.reset = .next t) ∧ (Instr.ldImm 1 2).destination vf = false ∧
    (Instr.ldImm 1 2).writesFlag = false :=
  ⟨⟨_, rfl⟩, by decide, by decide, ⟨_, rfl⟩, by decide, rfl⟩
theorem witness_MemoryWriters : (∃ t, exec (.storeRegs 2) (State.reset.setI 0xFFE) = .next t) ∧
    ¬(Instr.storeRegs 2).storesTo (State.reset.setI 0xFFE) 0x001 := by
  refine ⟨⟨_, rfl⟩, ?_⟩
  rintro ⟨k, hk, h⟩
  have hk : k < 3 := by
    have : (2 : Nibble).toNat = 2 := rfl
    omega
  revert h
  revert k
  decide
/-- A state with V1 = 5 and one return address. -/
def calledState : State := { State.reset.setReg 1 5 with stack := [0x204] }
theorem witness_ControlStateWriters :
    (∃ t, exec (.ldI 5) calledState = .next t ∧ t.i ≠ calledState.i) ∧
    (∃ t, exec .ret calledState = .next t ∧ t.stack ≠ calledState.stack) ∧
    (∃ t, exec (.ldDtVx 1) calledState = .next t ∧ t.dt ≠ calledState.dt) ∧
    (∃ t, exec (.ldStVx 1) calledState = .next t ∧ t.st ≠ calledState.st) ∧
    (∃ t, exec (.ldVxKey 1) calledState = .next t ∧ t.paused ≠ calledState.paused) ∧
    (∃ t, exec (.rnd 1 0) calledState = .next t ∧ t.draws ≠ calledState.draws) :=
  ⟨⟨_, rfl, by decide⟩, ⟨_, rfl, by decide⟩, ⟨_, rfl, by decide⟩, ⟨_, rfl, by decide⟩, ⟨_, rfl, by decide⟩, _, rfl,
    by simp [State.drawByte]⟩
theorem witness_ControlStateWriters_grid :
    ∃ t, exec .cls { State.reset with grid := Grid.clear.toggle 63 31 } = .next t ∧ t.grid ≠ Grid.clear.toggle 63 31 := by
  refine ⟨_, rfl, fun h => ?_⟩
  have : Grid.clear.cell 63 31 = (Grid.clear.toggle 63 31).cell 63 31 := congrArg (fun g => Grid.cell g 63 31) h
  rw [Grid.cell_toggle, Grid.cell_clear] at this
  simp at this
theorem witness_PauseTransitions : waiting.paused = true ∧
    ((holding 0xF30A).paused = false ∧ ∃ t, step (holding 0xF30A) = .next t ∧ t.paused = true) ∧
    (∃ t, step { waiting with inputs := [.event (.keyPress 0xF)] } = .next t ∧ t.paused = false) ∧
    ∃ t, step { waiting with inputs := [.event .reset] } = .next t ∧ t.paused = false :=
  ⟨rfl, ⟨rfl, _, rfl, rfl⟩, ⟨_, rfl, rfl⟩, _, rfl, rfl⟩

-- Families
theorem witness_RetPopsOrUnderflows : ({ State.reset with stack := [0x30A, 0x204] } : State).stack = 0x30A :: [0x204] ∧
    State.reset.stack = [] ∧ State.reset.params.stackCap ≠ some State.reset.stack.length :=
  ⟨rfl, rfl, by decide⟩
theorem witness_SysDoesNothingJpJumps : (0x0EF : Addr) ≠ 0x0E0 ∧ (0x0EF : Addr) ≠ 0x0EE := by decide
theorem witness_CallPushesOrOverflows :
    ({ cappedState with stack := [0x202] } : State).params.stackCap ≠ some [(0x202 : Addr)].length ∧
    cappedState.params.stackCap = some cappedState.stack.length := by decide
theorem witness_SubtractWithNoBorrow :
    (0 : Byte) = (if (State.reset.reg 1).toNat > (State.reset.reg 2).toNat then 1 else 0) := by decide
theorem witness_FlagRegisterAsOperand : (0x0 : Nibble) ≠ vf ∧ (0xE : Nibble) ≠ vf ∧ 0 = (State.reset.reg vf).toNat
    ∧ 0 = (State.reset.reg 0xE).toNat := by decide
theorem witness_SetPixelToggles : 63 < 64 ∧ 31 < 32 ∧
    (262, 269) ∈ (((State.reset.setReg 1 0xFF).setReg 2 0xFF).writeBytes 0 (List.replicate 15 0xFF)).spritePoints 1 2 0xF := by
  decide

/-- A sprite of one row, bits 7 and 0, at (60, 31): it covers the cells (60, 31) and (3, 31), the second set beforehand. -/
def spriteState : State :=
  { ((State.reset.setReg 1 60).setReg 2 63).memWrite 0 0x81 with grid := Grid.clear.toggle 3 31 }

theorem spriteState_covers (c : Nat) (hc : c = 0 ∨ c = 7) : spriteState.SpriteCovers 1 2 1 ((60 + c) % 64) 31 :=
  ⟨0, c, by decide, by omega, by rcases hc with rfl | rfl <;> decide, by rcases hc with rfl | rfl <;> decide, by decide⟩
theorem spriteState_not_covers : ¬spriteState.SpriteCovers 1 2 1 0 0 := by
  rintro ⟨r, c, hr, hc, hb, hx, hy⟩
  have hr : r = 0 := by
    have : (1 : Nibble).toNat = 1 := rfl
    omega
  subst hr
  revert hy
  decide
theorem witness_DrawXorsSprite : (0 < 64 ∧ 0 < 32) ∧
    (∃ X Y, spriteState.SpriteCovers 1 2 1 X Y ∧ spriteState.grid.cell X Y = true) ∧
    ¬∃ X Y, State.reset.SpriteCovers 1 2 0 X Y ∧ State.reset.grid.cell X Y = true := by
  refine ⟨by decide, ⟨3, 31, spriteState_covers 7 (.inr rfl), by decide⟩, ?_⟩
  rintro ⟨X, Y, ⟨r, c, hr, -⟩, -⟩
  exact absurd hr (Nat.not_lt_zero r)
theorem witness_DrawTwiceRestoresGrid : (1 : Nibble) ≠ vf ∧ (2 : Nibble) ≠ vf ∧
    (∃ X Y, spriteState.SpriteCovers 1 2 1 X Y ∧ spriteState.grid.cell X Y = false) ∧
    ¬∃ X Y, State.reset.SpriteCovers 1 2 0 X Y ∧ State.reset.grid.cell X Y = false := by
  refine ⟨by decide, by decide, ⟨60, 31, spriteState_covers 0 (.inl rfl), by decide⟩, ?_⟩
  rintro ⟨X, Y, ⟨r, c, hr, -⟩, -⟩
  exact absurd hr (Nat.not_lt_zero r)
theorem witness_SkipsOnKey : ((State.reset.setReg 2 0x0F).reg 2).toNat < 16 ∧
    ¬((State.reset.setReg 2 0x10).reg 2).toNat < 16 := by decide
theorem witness_DecimalDigitsAreStored :
    ∀ k, k < 3 → wrapAddr 0x001 ≠ wrapAddr ((State.reset.setI 0xFFE).indexAddr k) := by decide
theorem witness_RegistersAreStored : (0xF : Nibble).toNat ≤ (0xF : Nibble).toNat ∧
    ∀ k, k < 16 → wrapAddr 0x00E ≠ wrapAddr ((State.reset.setI 0xFFE).indexAddr k) := by decide
theorem witness_StoreIsSeenByNextFetch : 1 ≤ (1 : Nibble).toNat ∧
    wrapAddr ((State.reset.setI 0x1200).indexAddr 0) = (State.reset.setI 0x1200).pc.toNat := by decide
theorem witness_HighBitsOfIndexAreUnobservable : (State.reset.setI 0x0300).SameButHighI (State.reset.setI 0xF300) :=
  ⟨rfl, by decide⟩

-- The wait, the Scheduler and the timers
theorem witness_KeyEventsAndHandOff : (0x0F : Byte).toNat < 16 ∧
    (expecting [.keyPress 0x0F]).inputs = .event (.keyPress 0x0F) :: [] ∧
    (expecting [.keyRelease 0x0F]).inputs = .event (.keyRelease 0x0F) :: [] := ⟨by decide, rfl, rfl⟩
theorem witness_MeaninglessEventsAreRefused : ¬(0x10 : Byte).toNat < 16 ∧
    (expecting [.keyPress 0x10]).inputs = .event (.keyPress 0x10) :: [] ∧
    (expecting [.loadProgram []]).betweenTicks = true ∧ 3584 < (List.replicate 3585 (0 : Byte)).length ∧
    ({ expecting [.reset] with stepsLeft := 1 } : State).betweenTicks = false :=
  ⟨by decide, rfl, rfl, by rw [List.length_replicate]; decide, rfl⟩
theorem witness_WaitHoldsUntilKeyPress : waiting.inputs = [] ∧ waiting.fault = none ∧ waiting.paused = true := ⟨rfl, rfl, rfl⟩
theorem witness_StepsMakeUpTheTick : State.reset.inputs = [] ∧ State.reset.stepsLeft = State.reset.params.ipt := ⟨rfl, rfl⟩
theorem witness_EndOfTick : waiting.fault = none ∧ runQuota waiting.params.ipt waiting = .next waiting ∧
    State.reset.fault = none ∧ ∃ t, runQuota State.reset.params.ipt State.reset = .next t ∧ t.fault = none ∧
      t.paused = false :=
  ⟨rfl, rfl, rfl, _, rfl, rfl, rfl⟩
theorem witness_LastStepEndsTick :
    ((holding 0x6A42).Ready ∧ 1 < (holding 0x6A42).stepsLeft ∧
      ∃ t, executorStep (holding 0x6A42) = .next t ∧ t.fault = none) ∧
    ((lastStep (holding 0x6A42)).Ready ∧ (lastStep (holding 0x6A42)).stepsLeft = 1 ∧
      ∃ t, executorStep (lastStep (holding 0x6A42)) = .next t ∧ t.fault = none) :=
  ⟨⟨ready_holding _, by decide, _, rfl, rfl⟩, ⟨rfl, rfl, rfl, by decide⟩, rfl, _, rfl, rfl⟩
theorem witness_SoundTimerIsNotRead : (∃ t, exec (.ldVxDt 1) State.reset = .next t) ∧ ∀ x, Instr.ldVxDt 1 ≠ .ldStVx x :=
  ⟨⟨_, rfl⟩, fun _ h => by cases h⟩

-- Reset and loading
theorem witness_ResetCommand : (expecting [.reset]).inputs = .event .reset :: [] ∧
    (expecting [.reset]).stepsLeft = (expecting [.reset]).params.ipt ∧
    ({ haltedState with inputs := [.event .reset] } : State).fault ≠ none := ⟨rfl, rfl, by decide⟩
theorem witness_FontLoad : (expecting [.loadFont]).inputs = .event .loadFont :: [] ∧
    (expecting [.loadFont]).betweenTicks = true ∧ 15 < 16 ∧ 4 < 5 ∧ 80 ≤ wrapAddr 80 := ⟨rfl, rfl, by decide, by decide, by decide⟩
/-- The longest image that fits. -/
def fullImage : List Byte := List.replicate 3584 0x60
theorem witness_ProgramLoad :
    (expecting [.loadProgram fullImage]).inputs = .event (.loadProgram fullImage) :: [] ∧
    (expecting [.loadProgram fullImage]).betweenTicks = true ∧ fullImage.length ≤ 3584 ∧ 3583 < fullImage.length ∧
    wrapAddr 0x11FF < 0x200 := by
  have h : fullImage.length = 3584 := List.length_replicate
  exact ⟨rfl, rfl, h.le, by omega, by decide⟩
theorem witness_BootSequence : (expecting [.reset, .loadFont, .loadProgram [0x60, 0x05]]).betweenTicks = true ∧
    [(0x60 : Byte), 0x05].length ≤ 3584 ∧
    (expecting [.reset, .loadFont, .loadProgram [0x60, 0x05]]).inputs = .event .reset :: (bootEvents [0x60, 0x05] ++ []) :=
  ⟨rfl, by decide, rfl⟩
theorem witness_LaunchStateValues : fullImage.length ≤ 3584 ∧ 3583 < fullImage.length ∧ 15 < 16 ∧ 4 < 5 ∧
    0 < Config.Params.default.ipt ∧ 80 ≤ wrapAddr 0x1FF ∧ wrapAddr 0x1FF < 0x200 := by
  have h : fullImage.length = 3584 := List.length_replicate
  exact ⟨h.le, by omega, by decide, by decide, by decide, by decide, by decide⟩
/-- The other range of zero bytes, after a short image. -/
theorem witness_LaunchStateValues_after : [(0x60 : Byte), 0x05].length ≤ 3584 ∧ 80 ≤ wrapAddr 0xFFF ∧
    0x200 + [(0x60 : Byte), 0x05].length ≤ wrapAddr 0xFFF := by decide

end Sys2Proof.Tests
end

section
/-! O8 (R14, R230): every instruction and every undisturbed step answers a next state. The lemmas follow a step from the
inside out: the two instructions whose meaning branches, `exec`, the Executor's step, the Scheduler's move, `step`. -/

namespace Sys2Proof.Machine

/-! ### RET and CALL, by cases -/

/-- R102: on an empty stack RET records the fatal error. -/
theorem execRet_empty {s : State} (h : s.stack = []) :
    execRet s = .next (s.raise .stackUnderflow (encode .ret)) := by
  simp [execRet, State.pop, h]

/-- R102: else RET goes on at the entry it takes from the stack. -/
theorem execRet_pop {s : State} {a : Addr} {rest : List Addr} (h : s.stack = a :: rest) :
    execRet s = .next ({ s with stack := rest }.setPc a.toNat) := by
  simp [execRet, State.pop, h]

/-- R105: at the stack cap CALL records the fatal error. -/
theorem execCall_full {s : State} (nnn : Addr) (h : s.stackFull = true) :
    execCall nnn s = .next (s.raise .stackOverflow (encode (.call nnn))) := by
  simp [execCall, h]

/-- R105: else CALL pushes the advanced pc and jumps. -/
theorem execCall_room {s : State} (nnn : Addr) (h : s.stackFull = false) :
    execCall nnn s = .next ((s.push s.pc).setPc nnn.toNat) := by
  simp [execCall, h]

/-! ### The answer of each layer of a step -/

theorem execRet_answers_next (s : State) : ∃ t, execRet s = .next t := by
  cases h : s.stack with
  | nil => exact ⟨_, execRet_empty h⟩
  | cons a rest => exact ⟨_, execRet_pop h⟩

theorem execCall_answers_next (nnn : Addr) (s : State) : ∃ t, execCall nnn s = .next t := by
  cases h : s.stackFull with
  | true => exact ⟨_, execCall_full nnn h⟩
  | false => exact ⟨_, execCall_room nnn h⟩

/-- Only the meanings of RET and CALL branch; every other one is a single next state. -/
theorem exec_answers_next (i : Instr) (s : State) : ∃ t, exec i s = .next t := by
  cases i
  case ret => exact execRet_answers_next s
  case call nnn => exact execCall_answers_next nnn s
  all_goals exact ⟨_, rfl⟩

theorem executeOpcode_of_ok {op : Opcode} {i : Instr} (h : decodeOpcode op = .ok i) (s : State) :
    executeOpcode op s = exec i s.advance := by
  simp [executeOpcode, h]

theorem executeOpcode_of_error {op : Opcode} {e : DecodeError} (h : decodeOpcode op = .error e) (s : State) :
    executeOpcode op s = .next (s.advance.raise .unrecognizedInstruction op) := by
  simp [executeOpcode, h]

theorem executeOpcode_answers_next (op : Opcode) (s : State) : ∃ t, executeOpcode op s = .next t := by
  cases h : decodeOpcode op with
  | ok i => exact executeOpcode_of_ok h s ▸ exec_answers_next i s.advance
  | error e => exact ⟨_, executeOpcode_of_error h s⟩

theorem executorStep_answers_next (s : State) : ∃ t, executorStep s = .next t := by
  by_cases hf : s.fault = none
  · cases hp : s.paused with
    | true => exact ⟨s, executorStep_paused hf hp⟩
    | false => exact executorStep_running hf hp ▸ executeOpcode_answers_next s.fetchOpcode s
  · exact ⟨s, executorStep_halted hf⟩

/-- With IPT = 0 a move is a whole tick, which has no step (D24). -/
theorem runStep_no_steps {s : State} (hf : s.fault = none) (h : s.stepsLeft = 0) :
    runStep s = .next { s.finishTick with stepsLeft := s.params.ipt } := by
  simp [runStep, State.halted, hf, h]

theorem runStep_answers_next (s : State) : ∃ t, runStep s = .next t := by
  by_cases hf : s.fault = none
  · cases Nat.eq_zero_or_pos s.stepsLeft with
    | inl h0 => exact ⟨_, runStep_no_steps hf h0⟩
    | inr hpos =>
      obtain ⟨t, ht⟩ := executorStep_answers_next s
      exact ⟨t.afterStep, by rw [runStep_running hf hpos, ht, Result.andThen_next]⟩
  · exact ⟨s, runStep_halted hf⟩

/-- Settles O8: every instruction answers a next state, and an undisturbed step is a move of the block by itself, which
does too. -/
theorem everyStepAnswersNext : Obligations.EveryStepAnswersNext :=
  ⟨exec_answers_next, fun s h => step_undisturbed h ▸ runStep_answers_next s⟩

end Sys2Proof.Machine
end

section
/-! O19, and the layer that the statements about whole moves stand on: a move taken apart, from `exec` outwards. Each
`_cases` lemma says everything that one layer can do when it answers a next state. -/

namespace Sys2Proof.Machine

/-! ### The decoder -/

/-- What a family of the decode tree may answer: an instruction, or the error that carries the opcode itself (R76). -/
def OkOrUnrecognized (op : Opcode) (r : Except DecodeError Instr) : Prop :=
  (∃ i, r = .ok i) ∨ r = .error (.unrecognizedInstruction op)

section
variable {op : Opcode}

theorem okOrUnrecognized_ok (i : Instr) : OkOrUnrecognized op (.ok i) := .inl ⟨i, rfl⟩

theorem okOrUnrecognized_ite {c : Prop} [Decidable c] (i : Instr) {r : Except DecodeError Instr}
    (h : OkOrUnrecognized op r) : OkOrUnrecognized op (if c then .ok i else r) := by
  split
  · exact okOrUnrecognized_ok i
  · exact h

theorem decodeFamily8_okOrUnrecognized : OkOrUnrecognized op (decodeFamily8 op) := by
  unfold decodeFamily8
  repeat apply okOrUnrecognized_ite
  exact .inr rfl

theorem decodeFamilyE_okOrUnrecognized : OkOrUnrecognized op (decodeFamilyE op) := by
  unfold decodeFamilyE
  repeat apply okOrUnrecognized_ite
  exact .inr rfl

theorem decodeFamilyF_okOrUnrecognized : OkOrUnrecognized op (decodeFamilyF op) := by
  unfold decodeFamilyF
  repeat apply okOrUnrecognized_ite
  exact .inr rfl

/-- Of the sixteen families, all but 8, E and F decode every opcode (R75, R76). -/
theorem decodeOpcode_okOrUnrecognized (op : Opcode) : OkOrUnrecognized op (decodeOpcode op) := by
  unfold decodeOpcode
  repeat apply okOrUnrecognized_ite
  split
  · exact decodeFamily8_okOrUnrecognized
  repeat apply okOrUnrecognized_ite
  split
  · exact decodeFamilyE_okOrUnrecognized
  · exact decodeFamilyF_okOrUnrecognized

end

/-! ### The instructions -/

/-- R102: RET records an underflow or takes the stack's top entry for pc. -/
theorem execRet_cases {s t : State} (h : execRet s = .next t) :
    (s.stack = [] ∧ t = s.raise .stackUnderflow (encode .ret)) ∨
      ∃ a rest, s.stack = a :: rest ∧ t = ({ s with stack := rest } : State).setPc a.toNat := by
  cases hs : s.stack with
  | nil =>
    rw [execRet_empty hs] at h
    exact .inl ⟨rfl, (Host.Outcome.next.inj h).symm⟩
  | cons a rest =>
    rw [execRet_pop hs] at h
    exact .inr ⟨a, rest, rfl, (Host.Outcome.next.inj h).symm⟩

/-- R105: CALL records an overflow or pushes the advanced pc and jumps. -/
theorem execCall_cases {nnn : Addr} {s t : State} (h : execCall nnn s = .next t) :
    (s.stackFull = true ∧ t = s.raise .stackOverflow (encode (.call nnn))) ∨
      (s.stackFull = false ∧ t = (s.push s.pc).setPc nnn.toNat) := by
  cases hs : s.stackFull with
  | true =>
    rw [execCall_full nnn hs] at h
    exact .inl ⟨rfl, (Host.Outcome.next.inj h).symm⟩
  | false =>
    rw [execCall_room nnn hs] at h
    exact .inr ⟨rfl, (Host.Outcome.next.inj h).symm⟩

/-- Settles O19: RET and CALL by their cases; every other instruction is one update of the state, of which the field
lemmas of `Laws/State` say what it leaves. -/
theorem controlStateWriters : Obligations.ControlStateWriters := by
  intro i s t h
  cases i
  case ret => obtain ⟨-, rfl⟩ | ⟨a, rest, -, rfl⟩ := execRet_cases h <;> simp
  case call nnn => obtain ⟨-, rfl⟩ | ⟨-, rfl⟩ := execCall_cases h <;> simp
  all_goals
    obtain rfl := Host.Outcome.next.inj h
    simp [State.drawByte_snd]

/-- R230: an instruction records no fatal error but RET's underflow and CALL's overflow. -/
theorem exec_fault_cases {i : Instr} {s t : State} (h : exec i s = .next t) :
    t.fault = s.fault ∨
    (s.stack = [] ∧ t = s.raise .stackUnderflow (encode .ret)) ∨
    ∃ nnn, s.stackFull = true ∧ t = s.raise .stackOverflow (encode (.call nnn)) := by
  cases i
  case ret =>
    obtain ⟨hs, rfl⟩ | ⟨a, rest, -, rfl⟩ := execRet_cases h
    · exact .inr (.inl ⟨hs, rfl⟩)
    · exact .inl rfl
  case call nnn =>
    obtain ⟨hs, rfl⟩ | ⟨-, rfl⟩ := execCall_cases h
    · exact .inr (.inr ⟨nnn, hs, rfl⟩)
    · exact .inl rfl
  all_goals
    obtain rfl := Host.Outcome.next.inj h
    simp [State.drawByte_snd]

theorem exec_params {i : Instr} {s t : State} (h : exec i s = .next t) : t.params = s.params := by
  obtain ⟨-, -, -, -, -, -, -, -, hparams, -⟩ := controlStateWriters i s t h
  exact hparams

theorem exec_stepsLeft {i : Instr} {s t : State} (h : exec i s = .next t) : t.stepsLeft = s.stepsLeft := by
  obtain ⟨-, -, -, -, -, -, -, -, -, hsteps, -⟩ := controlStateWriters i s t h
  exact hsteps

/-- R26: an instruction other than RET and CALL leaves the stack. -/
theorem exec_stack_cases {i : Instr} {s t : State} (h : exec i s = .next t) :
    t.stack = s.stack ∨ i = .ret ∨ ∃ nnn, i = .call nnn := by
  obtain ⟨-, hstack, -⟩ := controlStateWriters i s t h
  exact or_iff_not_imp_left.mpr hstack

/-- R202: an instruction leaves the pause flag or is `Fx0A`, which sets its target. -/
theorem exec_paused_cases {i : Instr} {s t : State} (h : exec i s = .next t) :
    t.paused = s.paused ∨ ∃ x, i = .ldVxKey x ∧ t.waitReg = x := by
  obtain ⟨-, -, -, -, hpause, -⟩ := controlStateWriters i s t h
  refine or_iff_not_imp_left.mpr fun hne => ?_
  obtain ⟨x, rfl⟩ := hpause (.inl hne)
  obtain rfl := Host.Outcome.next.inj h
  exact ⟨x, rfl, rfl⟩

/-! ### The Executor's step -/

/-- R70: the Executor rests, runs the decoded instruction, or records an illegal opcode. -/
theorem executorStep_cases {s t : State} (h : executorStep s = .next t) :
    ((s.fault ≠ none ∨ s.paused = true) ∧ t = s) ∨
    (s.fault = none ∧ s.paused = false ∧
      ((∃ i, decodeOpcode s.fetchOpcode = .ok i ∧ exec i s.advance = .next t) ∨
        (decodeOpcode s.fetchOpcode = .error (.unrecognizedInstruction s.fetchOpcode) ∧
          t = s.advance.raise .unrecognizedInstruction s.fetchOpcode))) := by
  by_cases hf : s.fault = none
  · cases hp : s.paused with
    | true =>
      rw [executorStep_paused hf hp] at h
      exact .inl ⟨.inr rfl, (Host.Outcome.next.inj h).symm⟩
    | false =>
      rw [executorStep_running hf hp] at h
      refine .inr ⟨hf, rfl, ?_⟩
      obtain ⟨i, hi⟩ | he := decodeOpcode_okOrUnrecognized s.fetchOpcode
      · exact .inl ⟨i, hi, executeOpcode_of_ok hi s ▸ h⟩
      · rw [executeOpcode_of_error he] at h
        exact .inr ⟨he, (Host.Outcome.next.inj h).symm⟩
  · rw [executorStep_halted hf] at h
    exact .inl ⟨.inl hf, (Host.Outcome.next.inj h).symm⟩

theorem executorStep_params {s t : State} (h : executorStep s = .next t) : t.params = s.params := by
  obtain ⟨-, rfl⟩ | ⟨-, -, ⟨i, -, hi⟩ | ⟨-, rfl⟩⟩ := executorStep_cases h
  · rfl
  · exact (exec_params hi).trans s.advance_params
  · rfl

theorem executorStep_stepsLeft {s t : State} (h : executorStep s = .next t) : t.stepsLeft = s.stepsLeft := by
  obtain ⟨-, rfl⟩ | ⟨-, -, ⟨i, -, hi⟩ | ⟨-, rfl⟩⟩ := executorStep_cases h
  · rfl
  · exact (exec_stepsLeft hi).trans s.advance_stepsLeft
  · rfl

/-! ### The Scheduler's move -/

/-- Everything a move of the block by itself can be (R233, R245, D24). -/
theorem runStep_cases {s t : State} (h : runStep s = .next t) :
    (s.fault ≠ none ∧ t = s) ∨
    (s.fault = none ∧ s.stepsLeft = 0 ∧ t = { s.finishTick with stepsLeft := s.params.ipt }) ∨
    (s.fault = none ∧ 0 < s.stepsLeft ∧ ∃ u, executorStep s = .next u ∧ t = u.afterStep) := by
  by_cases hf : s.fault = none
  · obtain h0 | hpos := Nat.eq_zero_or_pos s.stepsLeft
    · rw [runStep_no_steps hf h0] at h
      exact .inr (.inl ⟨hf, h0, (Host.Outcome.next.inj h).symm⟩)
    · rw [runStep_running hf hpos] at h
      obtain ⟨u, hu, ht⟩ := Result.andThen_eq_next h
      exact .inr (.inr ⟨hf, hpos, u, hu, (Host.Outcome.next.inj ht).symm⟩)
  · rw [runStep_halted hf] at h
    exact .inl ⟨hf, (Host.Outcome.next.inj h).symm⟩

/-- Where a step leaves the Scheduler: the tick is over and the next begins, or one step fewer is left (R233, R245). -/
theorem State.afterStep_cases (s : State) :
    s.afterStep = { s with stepsLeft := s.params.ipt } ∨
    s.afterStep = { s.finishTick with stepsLeft := s.params.ipt } ∨
    (1 < s.stepsLeft ∧ s.afterStep = { s with stepsLeft := s.stepsLeft - 1 }) := by
  unfold State.afterStep
  split
  · exact .inl rfl
  · split
    · exact .inr (.inl rfl)
    · exact .inr (.inr ⟨by omega, rfl⟩)

section
variable (s : State)

@[simp] theorem State.afterStep_pc : s.afterStep.pc = s.pc := by
  obtain e | e | ⟨-, e⟩ := s.afterStep_cases <;> simp [e]
@[simp] theorem State.afterStep_stack : s.afterStep.stack = s.stack := by
  obtain e | e | ⟨-, e⟩ := s.afterStep_cases <;> simp [e]
@[simp] theorem State.afterStep_paused : s.afterStep.paused = s.paused := by
  obtain e | e | ⟨-, e⟩ := s.afterStep_cases <;> simp [e]
@[simp] theorem State.afterStep_waitReg : s.afterStep.waitReg = s.waitReg := by
  obtain e | e | ⟨-, e⟩ := s.afterStep_cases <;> simp [e]
@[simp] theorem State.afterStep_fault : s.afterStep.fault = s.fault := by
  obtain e | e | ⟨-, e⟩ := s.afterStep_cases <;> simp [e]
@[simp] theorem State.afterStep_params : s.afterStep.params = s.params := by
  obtain e | e | ⟨-, e⟩ := s.afterStep_cases <;> simp [e]

end

theorem runStep_params {s t : State} (h : runStep s = .next t) : t.params = s.params := by
  obtain ⟨-, rfl⟩ | ⟨-, -, rfl⟩ | ⟨-, -, u, hu, rfl⟩ := runStep_cases h
  · rfl
  · simp
  · simpa using executorStep_params hu

end Sys2Proof.Machine
end

section
/-! O14: every move keeps the Scheduler's place in its tick, the stack within its cap and the fatal-error record
truthful. Each of the three parts has its own lemmas; the move is put together from them at the end. -/

namespace Sys2Proof.Machine

/-! ### The parts of the invariant -/

theorem State.StackInv.of_length_le {s t : State} (h : s.StackInv) (hparams : t.params = s.params)
    (hlen : t.stack.length ≤ s.stack.length) : t.StackInv :=
  fun cap hcap => hlen.trans (h cap (hparams ▸ hcap))

theorem State.faultInv_of_none {s : State} (h : s.fault = none) : s.FaultInv := by
  intro f hf
  simp [h] at hf

/-- The invariant reads only pc, the stack, the pause flag, the record, the parameters and the Scheduler's place; and of
the pause flag only that it is clear. -/
theorem State.Inv.of_agree {s t : State} (h : s.Inv) (hpc : t.pc = s.pc) (hstack : t.stack = s.stack)
    (hpaused : t.paused = s.paused ∨ t.paused = false) (hfault : t.fault = s.fault) (hparams : t.params = s.params)
    (hsteps : t.stepsLeft = s.stepsLeft) : t.Inv where
  schedule := by
    obtain ⟨hle, hpos⟩ := h.schedule
    exact ⟨by rwa [hparams, hsteps], by rwa [hparams, hsteps]⟩
  stack := h.stack.of_length_le hparams (by rw [hstack])
  fault := by
    intro f hf
    obtain ⟨hfpc, hfp, hkind⟩ := h.fault f (hfault ▸ hf)
    exact ⟨hpc.trans hfpc, hpaused.elim (·.trans hfp) id, by rwa [hstack, hparams]⟩

theorem State.Inv.after_input {s : State} (h : s.Inv) (rest : List Input) : ({ s with inputs := rest } : State).Inv :=
  h.of_agree rfl rfl (.inl rfl) rfl rfl rfl

/-- A tick that begins has its whole quota to run. -/
theorem State.inv_of_tick_begins {s : State} (hsteps : s.stepsLeft = s.params.ipt) (hstack : s.StackInv)
    (hfault : s.FaultInv) : s.Inv :=
  ⟨⟨hsteps.le, fun hpos => hsteps ▸ hpos⟩, hstack, hfault⟩

/-! ### The instructions -/

/-- R26, R105: RET shortens the stack and CALL lengthens it below the cap only. -/
theorem exec_keeps_stackInv {i : Instr} {s t : State} (hs : s.StackInv) (h : exec i s = .next t) : t.StackInv := by
  obtain hstack | rfl | ⟨nnn, rfl⟩ := exec_stack_cases h
  · exact hs.of_length_le (exec_params h) (by rw [hstack])
  · obtain ⟨-, rfl⟩ | ⟨a, rest, hstack, rfl⟩ := execRet_cases h
    · exact hs
    · exact hs.of_length_le rfl (by simp [hstack])
  · obtain ⟨-, rfl⟩ | ⟨hroom, rfl⟩ := execCall_cases h
    · exact hs
    · intro cap hcap
      have hle : s.stack.length ≤ cap := hs cap hcap
      have hne : s.stack.length ≠ cap := by
        rintro rfl
        exact Bool.false_ne_true (hroom.symm.trans (s.stackFull_iff.mpr hcap))
      simp only [State.setPc_stack, State.push_stack, List.length_cons]
      omega

/-- R230, R231, R235: the record that a running instruction makes says what its kind means. -/
theorem exec_makes_faultInv {i : Instr} {s t : State} (hf : s.fault = none) (hp : s.paused = false)
    (h : exec i s = .next t) : t.FaultInv := by
  obtain hsame | ⟨hstack, rfl⟩ | ⟨nnn, hfull, rfl⟩ := exec_fault_cases h
  · exact State.faultInv_of_none (hsame.trans hf)
  · rintro _ ⟨⟩
    exact ⟨(BitVec.sub_add_cancel _ _).symm, hp, rfl, hstack⟩
  · rintro _ ⟨⟩
    exact ⟨(BitVec.sub_add_cancel _ _).symm, hp, fieldF_encodeNNN 0x2 nnn, s.stackFull_iff.mp hfull⟩

/-! ### The step and the move -/

theorem executorStep_keeps_stackInv {s t : State} (hs : s.StackInv) (h : executorStep s = .next t) : t.StackInv := by
  obtain ⟨-, rfl⟩ | ⟨-, -, ⟨i, -, hi⟩ | ⟨-, rfl⟩⟩ := executorStep_cases h
  · exact hs
  · exact exec_keeps_stackInv (s := s.advance) hs hi
  · exact hs

theorem executorStep_makes_faultInv {s t : State} (hf : s.fault = none) (h : executorStep s = .next t) :
    t.FaultInv := by
  obtain ⟨-, rfl⟩ | ⟨-, hp, ⟨i, -, hi⟩ | ⟨he, rfl⟩⟩ := executorStep_cases h
  · exact State.faultInv_of_none hf
  · exact exec_makes_faultInv (s := s.advance) hf hp hi
  · rintro _ ⟨⟩
    exact ⟨(BitVec.sub_add_cancel _ _).symm, hp, he⟩

theorem State.afterStep_inv {s : State} (hsteps : s.stepsLeft ≤ s.params.ipt) (hstack : s.StackInv)
    (hfault : s.FaultInv) : s.afterStep.Inv where
  schedule := by
    obtain e | e | ⟨hlt, e⟩ := s.afterStep_cases <;> rw [e]
    · exact ⟨le_rfl, id⟩
    · exact ⟨by simp, by simp⟩
    · exact ⟨(Nat.sub_le _ _).trans hsteps, fun _ => Nat.sub_pos_of_lt hlt⟩
  stack := hstack.of_length_le s.afterStep_params (by simp)
  fault := by simpa [State.FaultInv] using hfault

theorem runStep_keeps_inv {s t : State} (hs : s.Inv) (h : runStep s = .next t) : t.Inv := by
  obtain ⟨-, rfl⟩ | ⟨hf, -, rfl⟩ | ⟨hf, -, u, hu, rfl⟩ := runStep_cases h
  · exact hs
  · exact State.inv_of_tick_begins (by simp) (hs.stack.of_length_le (by simp) (by simp))
      (State.faultInv_of_none (by simpa using hf))
  · refine State.afterStep_inv ?_ (executorStep_keeps_stackInv hs.stack hu) (executorStep_makes_faultInv hf hu)
    rw [executorStep_stepsLeft hu, executorStep_params hu]
    exact hs.schedule.left

/-! ### Outside events -/

theorem State.resetBlock_inv (s : State) : s.resetBlock.Inv :=
  State.inv_of_tick_begins rfl (fun _ _ => Nat.zero_le _) (State.faultInv_of_none rfl)

theorem State.Inv.writeBytes {s : State} (hs : s.Inv) (base : Nat) (bytes : List Byte) :
    (s.writeBytes base bytes).Inv :=
  hs.of_agree (by simp) (by simp) (.inl (by simp)) (by simp) (by simp) (by simp)

theorem deliver_keeps_inv {e : HostEvent} {s t : State} (hs : s.Inv) (h : deliver e s = .next t) : t.Inv := by
  obtain ⟨-, -, rfl⟩ | ⟨-, -, rfl⟩ | ⟨bytes, -, -, -, rfl⟩ | ⟨code, -, -, -, rfl⟩ | ⟨code, -, -, -, rfl⟩ |
    ⟨code, -, -, rfl⟩ := deliver_cases h
  · exact s.resetBlock_inv
  · exact hs.writeBytes _ _
  · exact hs.writeBytes _ _
  · exact hs.of_agree rfl rfl (.inr rfl) rfl rfl rfl
  · exact hs.of_agree rfl rfl (.inl rfl) rfl rfl rfl
  · exact hs.of_agree rfl rfl (.inl rfl) rfl rfl rfl

/-- Settles O14: a move is one of the block by itself or an outside event, and each keeps the invariant. -/
theorem stepKeepsInv : Obligations.StepKeepsInv := by
  intro s t hs h
  obtain ⟨rest, ⟨hrun, -⟩ | ⟨e, -, he⟩⟩ := step_cases h
  · exact runStep_keeps_inv (hs.after_input rest) hrun
  · exact deliver_keeps_inv (hs.after_input rest) he

end Sys2Proof.Machine
end

section
/-! O54 and O47: what an instruction does not read. One case split over the instructions says that ST and bits 15:12 of I
carry through all of them but `Fx18`; O54 is its case of an unchanged I, and O47 takes its case of an unchanged ST
through the layers of a move. -/

namespace Sys2Proof.Machine

/-- The state with other values of I and ST. -/
def State.withIndexAndSt (s : State) (w : IndexWord) (b : Byte) : State :=
  { s with i := w, st := b }

/-! ### The operations -/

section
variable (s : State) (w : IndexWord) (b : Byte)

theorem State.skipIf_withIndexAndSt (c : Bool) :
    (s.withIndexAndSt w b).skipIf c = (s.skipIf c).withIndexAndSt w b := by
  cases c <;> rfl

theorem State.writeBytes_withIndexAndSt (base : Nat) (bytes : List Byte) :
    (s.withIndexAndSt w b).writeBytes base bytes = (s.writeBytes base bytes).withIndexAndSt w b := by
  induction bytes generalizing s base with
  | nil => rfl
  | cons c rest ih => exact ih (s.memWrite base c) (base + 1)

theorem State.finishTick_withIndexAndSt :
    (s.withIndexAndSt w s.st).finishTick = s.finishTick.withIndexAndSt w s.finishTick.st := by
  unfold State.finishTick State.decrementTimers
  cases hp : s.paused <;> simp [State.withIndexAndSt, State.emit, hp]

end

section
variable {s : State} {w : IndexWord} (hw : wrapAddr s.i.toNat = wrapAddr w.toNat) (b : Byte)
include hw

/-- An access from I reduces its address to 12 bits, so it does not see bits 15:12 (R25, R51). -/
theorem wrapAddr_indexAddr_congr (k : Nat) :
    wrapAddr ((s.withIndexAndSt w b).indexAddr k) = wrapAddr (s.indexAddr k) := by
  simp only [wrapAddr, Config.memSize, State.indexAddr, State.withIndexAndSt] at hw ⊢
  omega

theorem State.memRead_indexAddr_congr (k : Nat) :
    (s.withIndexAndSt w b).memRead ((s.withIndexAndSt w b).indexAddr k) = s.memRead (s.indexAddr k) :=
  s.memRead_congr (wrapAddr_indexAddr_congr hw b k)

theorem State.writeBytes_indexAddr_congr (k : Nat) (bytes : List Byte) :
    (s.withIndexAndSt w b).writeBytes ((s.withIndexAndSt w b).indexAddr k) bytes =
      (s.writeBytes (s.indexAddr k) bytes).withIndexAndSt w b := by
  rw [State.writeBytes_withIndexAndSt, s.writeBytes_congr bytes (wrapAddr_indexAddr_congr hw b k)]

theorem State.spritePoints_congr (x y n : Nibble) :
    (s.withIndexAndSt w b).spritePoints x y n = s.spritePoints x y n := by
  simp only [State.spritePoints, State.memRead_indexAddr_congr hw b]
  rfl

theorem State.loadedRegs_congr (x : Nibble) : (s.withIndexAndSt w b).loadedRegs x = s.loadedRegs x := by
  simp only [State.loadedRegs, State.memRead_indexAddr_congr hw b]
  rfl

/-- Fx1E keeps bits 11:0 of I apart from those above (R205). -/
theorem wrapAddr_add_congr (n : Nat) :
    wrapAddr (BitVec.ofNat 16 (s.i.toNat + n)).toNat = wrapAddr (BitVec.ofNat 16 (w.toNat + n)).toNat := by
  simp only [wrapAddr, Config.memSize, BitVec.toNat_ofNat] at hw ⊢
  omega

end

/-! ### The instructions -/

/-- RET and CALL read neither I nor ST. -/
theorem execRet_withIndexAndSt {s t : State} (w : IndexWord) (b : Byte) (h : execRet s = .next t) :
    execRet (s.withIndexAndSt w b) = .next (t.withIndexAndSt w b) := by
  obtain ⟨hs, rfl⟩ | ⟨a, rest, hs, rfl⟩ := execRet_cases h
  · exact execRet_empty hs
  · exact execRet_pop hs

theorem execCall_withIndexAndSt {nnn : Addr} {s t : State} (w : IndexWord) (b : Byte) (h : execCall nnn s = .next t) :
    execCall nnn (s.withIndexAndSt w b) = .next (t.withIndexAndSt w b) := by
  obtain ⟨hs, rfl⟩ | ⟨hs, rfl⟩ := execCall_cases h
  · exact execCall_full nnn hs
  · exact execCall_room nnn hs

/-- The instructions that write I or ST (R24, R28). -/
def writesIndexOrSt : Instr → Bool
  | .ldI _ | .addIVx _ | .ldFVx _ | .ldStVx _ => true
  | _ => false

/-- An instruction that writes neither I nor ST acts alike whatever ST and bits 15:12 of I are, and carries them
through. -/
theorem exec_withIndexAndSt {i : Instr} (hi : writesIndexOrSt i = false) {s t : State} {w : IndexWord}
    (hw : wrapAddr s.i.toNat = wrapAddr w.toNat) (b : Byte) (h : exec i s = .next t) :
    exec i (s.withIndexAndSt w b) = .next (t.withIndexAndSt w b) := by
  cases i
  case ret => exact execRet_withIndexAndSt w b h
  case call nnn => exact execCall_withIndexAndSt w b h
  case ldI | addIVx | ldFVx | ldStVx => cases hi
  all_goals obtain rfl := Host.Outcome.next.inj h
  case seImm | sneImm | seReg | sneReg | skp | sknp => exact congrArg _ (s.skipIf_withIndexAndSt w b _)
  case ldBVx | storeRegs => exact congrArg _ (State.writeBytes_indexAddr_congr hw b 0 _)
  case drw x y n =>
    simp only [exec, execDrw, State.spritePoints_congr hw b]
    rfl
  case loadRegs x =>
    simp only [exec, execLoadRegs, State.loadedRegs_congr hw b]
    rfl
  all_goals rfl

theorem exec_keeps_index_and_st {i : Instr} (hi : writesIndexOrSt i = false) {s t : State} (h : exec i s = .next t) :
    t.i = s.i ∧ t.st = s.st := by
  obtain ⟨hindex, -, -, hst, -⟩ := controlStateWriters i s t h
  constructor
  · by_contra hne
    obtain ⟨nnn, rfl⟩ | ⟨x, rfl⟩ | ⟨x, rfl⟩ := hindex hne <;> cases hi
  · by_contra hne
    obtain ⟨x, rfl⟩ := hst hne
    cases hi

/-- Settles O54: the instructions that write I do not read ST, and every other one but `Fx18` carries it through. -/
theorem soundTimerIsNotRead : Obligations.SoundTimerIsNotRead := by
  intro i s t b h hne
  cases hi : writesIndexOrSt i with
  | false =>
    obtain ⟨hindex, -⟩ := exec_keeps_index_and_st hi h
    have hcarry := exec_withIndexAndSt hi rfl b h
    rw [← hindex] at hcarry
    exact hindex ▸ hcarry
  | true =>
    cases i
    case ldStVx x => exact absurd rfl (hne x)
    case ldI | addIVx | ldFVx =>
      obtain rfl := Host.Outcome.next.inj h
      rfl
    all_goals cases hi

/-! ### The relation of states that differ only in bits 15:12 of I -/

theorem State.sameButHighI_withIndexAndSt {s : State} {w : IndexWord} (hw : wrapAddr s.i.toNat = wrapAddr w.toNat) :
    s.SameButHighI (s.withIndexAndSt w s.st) :=
  ⟨rfl, hw⟩

theorem State.SameButHighI.refl (s : State) : s.SameButHighI s := ⟨rfl, rfl⟩

theorem State.SameButHighI.eq_withIndexAndSt {s s' : State} (h : s.SameButHighI s') :
    ∃ w, wrapAddr s.i.toNat = wrapAddr w.toNat ∧ s' = s.withIndexAndSt w s.st :=
  ⟨s'.i, h.2, h.1⟩

theorem State.writeBytes_sameButHighI {s s' : State} (h : s.SameButHighI s') (base : Nat) (bytes : List Byte) :
    (s.writeBytes base bytes).SameButHighI (s'.writeBytes base bytes) := by
  obtain ⟨w, hw, rfl⟩ := h.eq_withIndexAndSt
  rw [State.writeBytes_withIndexAndSt, ← s.writeBytes_st base bytes]
  exact State.sameButHighI_withIndexAndSt ((s.writeBytes_i base bytes).symm ▸ hw)

/-- Two choices by the same condition are related where their branches are. -/
theorem rel_ite {α : Type} {R : α → α → Prop} {c : Prop} [Decidable c] {a a' b b' : α} (ha : R a a') (hb : R b b') :
    R (if c then a else b) (if c then a' else b') := by
  split
  · exact ha
  · exact hb

theorem Result.SameButHighI.andThen {f : State → Result}
    (hf : ∀ t t', t.SameButHighI t' → Result.SameButHighI (f t) (f t')) :
    ∀ {r r' : Result}, r.SameButHighI r' → Result.SameButHighI (r.andThen f) (r'.andThen f)
  | .next _, .next _, hr => hf _ _ hr
  | .refused _, .refused _, hr => hr

/-! ### The layers of a move -/

theorem exec_sameButHighI (i : Instr) {s s' : State} (h : s.SameButHighI s') :
    Result.SameButHighI (exec i s) (exec i s') := by
  obtain ⟨w, hw, rfl⟩ := h.eq_withIndexAndSt
  cases hi : writesIndexOrSt i with
  | false =>
    obtain ⟨t, ht⟩ := exec_answers_next i s
    obtain ⟨hindex, hst⟩ := exec_keeps_index_and_st hi ht
    rw [ht, exec_withIndexAndSt hi hw s.st ht, ← hst]
    exact State.sameButHighI_withIndexAndSt (hindex ▸ hw)
  | true =>
    cases i
    case ldI nnn => exact ⟨rfl, rfl⟩
    case addIVx x => exact ⟨rfl, wrapAddr_add_congr hw (s.reg x).toNat⟩
    case ldFVx x => exact ⟨rfl, rfl⟩
    case ldStVx x => exact ⟨rfl, hw⟩
    all_goals cases hi

theorem executeOpcode_sameButHighI (op : Opcode) {s s' : State} (h : s.SameButHighI s') :
    Result.SameButHighI (executeOpcode op s) (executeOpcode op s') := by
  obtain ⟨w, hw, rfl⟩ := h.eq_withIndexAndSt
  cases hd : decodeOpcode op with
  | ok i =>
    rw [executeOpcode_of_ok hd, executeOpcode_of_ok hd]
    exact exec_sameButHighI i (State.sameButHighI_withIndexAndSt (s := s.advance) hw)
  | error e =>
    rw [executeOpcode_of_error hd, executeOpcode_of_error hd]
    exact State.sameButHighI_withIndexAndSt (s := s.advance.raise .unrecognizedInstruction op) hw

/-- The flags that the Executor looks at, and its fetch, do not depend on I. -/
theorem executorStep_sameButHighI {s s' : State} (h : s.SameButHighI s') :
    Result.SameButHighI (executorStep s) (executorStep s') := by
  obtain ⟨w, hw, rfl⟩ := h.eq_withIndexAndSt
  exact rel_ite (R := Result.SameButHighI) h (rel_ite (R := Result.SameButHighI) h
    (executeOpcode_sameButHighI s.fetchOpcode h))

theorem State.SameButHighI.finishTick {s s' : State} (h : s.SameButHighI s') :
    s.finishTick.SameButHighI s'.finishTick := by
  obtain ⟨w, hw, rfl⟩ := h.eq_withIndexAndSt
  rw [State.finishTick_withIndexAndSt]
  exact State.sameButHighI_withIndexAndSt (s.finishTick_i.symm ▸ hw)

theorem State.SameButHighI.withStepsLeft {s s' : State} (h : s.SameButHighI s') (k : Nat) :
    State.SameButHighI { s with stepsLeft := k } { s' with stepsLeft := k } := by
  obtain ⟨w, hw, rfl⟩ := h.eq_withIndexAndSt
  exact ⟨rfl, hw⟩

theorem State.SameButHighI.withInputs {s s' : State} (h : s.SameButHighI s') (rest : List Input) :
    State.SameButHighI { s with inputs := rest } { s' with inputs := rest } := by
  obtain ⟨w, hw, rfl⟩ := h.eq_withIndexAndSt
  exact ⟨rfl, hw⟩

theorem State.SameButHighI.afterStep {s s' : State} (h : s.SameButHighI s') :
    s.afterStep.SameButHighI s'.afterStep := by
  obtain ⟨w, hw, rfl⟩ := h.eq_withIndexAndSt
  exact rel_ite (R := State.SameButHighI) (h.withStepsLeft s.params.ipt)
    (rel_ite (R := State.SameButHighI) (h.finishTick.withStepsLeft s.params.ipt) (h.withStepsLeft (s.stepsLeft - 1)))

theorem runStep_sameButHighI {s s' : State} (h : s.SameButHighI s') :
    Result.SameButHighI (runStep s) (runStep s') := by
  obtain ⟨w, hw, rfl⟩ := h.eq_withIndexAndSt
  exact rel_ite (R := Result.SameButHighI) h (rel_ite (R := Result.SameButHighI)
    (h.finishTick.withStepsLeft s.params.ipt)
    (.andThen (f := fun t => .next t.afterStep) (fun _ _ ht => ht.afterStep) (executorStep_sameButHighI h)))

theorem betweenTicksOnly_sameButHighI {command : State → Result} {s s' : State} (h : s.SameButHighI s')
    (hcommand : Result.SameButHighI (command s) (command s')) :
    Result.SameButHighI (betweenTicksOnly command s) (betweenTicksOnly command s') := by
  obtain ⟨w, hw, rfl⟩ := h.eq_withIndexAndSt
  exact rel_ite (R := Result.SameButHighI) hcommand rfl

theorem deliver_sameButHighI (e : HostEvent) {s s' : State} (h : s.SameButHighI s') :
    Result.SameButHighI (deliver e s) (deliver e s') := by
  obtain ⟨w, hw, rfl⟩ := h.eq_withIndexAndSt
  cases e with
  | reset => exact betweenTicksOnly_sameButHighI (command := fun t => .next t.resetBlock) h (.refl s.resetBlock)
  | loadFont =>
    exact betweenTicksOnly_sameButHighI (command := fun t => .next t.loadFont) h (State.writeBytes_sameButHighI h _ _)
  | loadProgram bytes =>
    exact betweenTicksOnly_sameButHighI h
      (rel_ite (R := Result.SameButHighI) (State.writeBytes_sameButHighI h _ bytes) rfl)
  | keyPress code =>
    exact rel_ite (R := Result.SameButHighI) (rel_ite (R := State.SameButHighI) ⟨rfl, hw⟩ ⟨rfl, hw⟩) rfl
  | keyRelease code => exact rel_ite (R := Result.SameButHighI) ⟨rfl, hw⟩ rfl

theorem step_quiet {s : State} {rest : List Input} (h : s.inputs = .quiet :: rest) :
    step s = runStep { s with inputs := rest } := by
  simp [step, moveOnce, h]

theorem step_event {s : State} {e : HostEvent} {rest : List Input} (h : s.inputs = .event e :: rest) :
    step s = deliver e { s with inputs := rest } := by
  simp [step, moveOnce, h]

/-- Settles O47: the inputs are the same on both sides, so the move is too, and each kind of move keeps the relation. -/
theorem highBitsOfIndexAreUnobservable : Obligations.HighBitsOfIndexAreUnobservable := by
  intro s s' h
  have hinputs : s'.inputs = s.inputs := by
    obtain ⟨w, -, rfl⟩ := h.eq_withIndexAndSt
    rfl
  cases hs : s.inputs with
  | nil =>
    rw [step_undisturbed hs, step_undisturbed (hinputs.trans hs)]
    exact runStep_sameButHighI h
  | cons input rest =>
    cases input with
    | quiet =>
      rw [step_quiet hs, step_quiet (hinputs.trans hs)]
      exact runStep_sameButHighI (h.withInputs rest)
    | event e =>
      rw [step_event hs, step_event (hinputs.trans hs)]
      exact deliver_sameButHighI e (h.withInputs rest)

end Sys2Proof.Machine
end

section
/-! O16, O17 and O20: the parameters, the registers and the pause flag, each followed from the instruction out to the
statement. -/

namespace Sys2Proof.Machine

/-! ### The registers (R21, R22) -/

section
variable (s : State) {x r : Nibble}

theorem State.reg_setReg_other (hx : r ≠ x) (b : Byte) : (s.setReg x b).reg r = s.reg r := by
  rw [State.reg_setReg, if_neg hx]

/-- The flag-writing operations write VF and then their destination (R132). -/
theorem State.reg_flagged_other (hx : r ≠ x) (hvf : r ≠ vf) (f b : Byte) :
    ((s.setReg vf f).setReg x b).reg r = s.reg r := by
  rw [State.reg_setReg_other _ hx, State.reg_setReg_other _ hvf]

theorem State.reg_loadedRegs_other (h : ¬r.toNat ≤ x.toNat) :
    ({ s with v := s.loadedRegs x } : State).reg r = s.reg r := by
  rw [State.reg_loadedRegs, if_neg h]

end

/-- Settles O17, by the kinds of destination: none, one register, a register after VF, VF alone, a block of registers. -/
theorem registerWriters : Obligations.RegisterWriters := by
  intro i s t r h hdest hflag
  cases i
  case ret => obtain ⟨-, rfl⟩ | ⟨a, rest, -, rfl⟩ := execRet_cases h <;> rfl
  case call nnn => obtain ⟨-, rfl⟩ | ⟨-, rfl⟩ := execCall_cases h <;> rfl
  all_goals obtain rfl := Host.Outcome.next.inj h
  case ldImm | addImm | ldReg | orReg | andReg | xorReg | ldVxDt | rnd =>
    exact State.reg_setReg_other _ (ne_of_beq_false hdest) _
  case addReg | subReg | shr | subn | shl =>
    exact s.reg_flagged_other (ne_of_beq_false hdest) (fun hvf => Bool.noConfusion (hflag hvf)) _ _
  case drw => exact State.reg_setReg_other _ (fun hvf => Bool.noConfusion (hflag hvf)) _
  case loadRegs x => exact s.reg_loadedRegs_other (of_decide_eq_false hdest)
  case seImm | sneImm | seReg | sneReg | skp | sknp => exact s.skipIf_reg _ r
  case ldBVx | storeRegs => exact s.writeBytes_reg _ _ r
  all_goals rfl

/-! ### The parameters (R31, R281) -/

theorem deliver_params {e : HostEvent} {s t : State} (h : deliver e s = .next t) : t.params = s.params := by
  obtain ⟨-, -, rfl⟩ | ⟨-, -, rfl⟩ | ⟨bytes, -, -, -, rfl⟩ | ⟨code, -, -, -, rfl⟩ | ⟨code, -, -, -, rfl⟩ |
    ⟨code, -, -, rfl⟩ := deliver_cases h
  · rfl
  · exact s.writeBytes_params _ _
  · exact s.writeBytes_params _ _
  all_goals rfl

/-- Settles O16: neither a move of the block by itself nor an outside event writes the parameters. -/
theorem parametersAreFixed : Obligations.ParametersAreFixed := by
  intro s t h
  obtain ⟨rest, ⟨hrun, -⟩ | ⟨e, -, he⟩⟩ := step_cases h
  · exact runStep_params (s := { s with inputs := rest }) hrun
  · exact deliver_params (s := { s with inputs := rest }) he

/-! ### The pause flag (R29) -/

/-- R29, R242: while the machine waits, the Executor does nothing. -/
theorem executorStep_of_paused {s : State} (hp : s.paused = true) : executorStep s = .next s := by
  by_cases hf : s.fault = none
  · exact executorStep_paused hf hp
  · exact executorStep_halted hf

/-- The block by itself leaves the pause flag, or runs `Fx0A`. -/
theorem executorStep_paused_cases {s t : State} (h : executorStep s = .next t) :
    t.paused = s.paused ∨
      (s.paused = false ∧ ∃ x, decodeOpcode s.fetchOpcode = .ok (.ldVxKey x) ∧ t.waitReg = x) := by
  obtain ⟨-, rfl⟩ | ⟨-, hp, ⟨i, hi, hexec⟩ | ⟨-, rfl⟩⟩ := executorStep_cases h
  · exact .inl rfl
  · obtain hsame | ⟨x, rfl, hx⟩ := exec_paused_cases hexec
    · exact .inl hsame
    · exact .inr ⟨hp, x, hi, hx⟩
  · exact .inl rfl

theorem runStep_paused_cases {s t : State} (h : runStep s = .next t) :
    t.paused = s.paused ∨
      (s.paused = false ∧ ∃ x, decodeOpcode s.fetchOpcode = .ok (.ldVxKey x) ∧ t.waitReg = x) := by
  obtain ⟨-, rfl⟩ | ⟨-, -, rfl⟩ | ⟨-, -, u, hu, rfl⟩ := runStep_cases h
  · exact .inl rfl
  · exact .inl s.finishTick_paused
  · simpa using executorStep_paused_cases hu

/-- An outside event leaves the pause flag, or is a key press or a reset, and then clears it. -/
theorem deliver_paused_cases {e : HostEvent} {s t : State} (h : deliver e s = .next t) :
    t.paused = s.paused ∨ (t.paused = false ∧ ((∃ c, e = .keyPress c) ∨ e = .reset)) := by
  obtain ⟨rfl, -, rfl⟩ | ⟨-, -, rfl⟩ | ⟨bytes, -, -, -, rfl⟩ | ⟨code, rfl, -, -, rfl⟩ | ⟨code, -, -, -, rfl⟩ |
    ⟨code, -, -, rfl⟩ := deliver_cases h
  · exact .inr ⟨rfl, .inr rfl⟩
  · exact .inl (s.writeBytes_paused _ _)
  · exact .inl (s.writeBytes_paused _ _)
  · exact .inr ⟨rfl, .inl ⟨code, rfl⟩⟩
  · exact .inl rfl
  · exact .inl rfl

/-- Everything a move can do to the pause flag. -/
theorem step_paused_cases {s t : State} (h : step s = .next t) :
    t.paused = s.paused ∨
    (s.paused = false ∧ ∃ x, decodeOpcode s.fetchOpcode = .ok (.ldVxKey x) ∧ t.waitReg = x) ∨
    (t.paused = false ∧
      ((∃ c rest, s.inputs = .event (.keyPress c) :: rest) ∨ ∃ rest, s.inputs = .event .reset :: rest)) := by
  obtain ⟨rest, ⟨hrun, -⟩ | ⟨e, hinputs, he⟩⟩ := step_cases h
  · obtain hsame | hset := runStep_paused_cases hrun
    · exact .inl hsame
    · exact .inr (.inl hset)
  · obtain hsame | ⟨hclear, ⟨c, rfl⟩ | rfl⟩ := deliver_paused_cases he
    · exact .inl hsame
    · exact .inr (.inr ⟨hclear, .inl ⟨c, rest, hinputs⟩⟩)
    · exact .inr (.inr ⟨hclear, .inr ⟨rest, hinputs⟩⟩)

/-- Settles O20: a move of the block by itself can only set the flag, and only by `Fx0A`; an outside event can only clear
it, and only as a key press or a reset. -/
theorem pauseTransitions : Obligations.PauseTransitions := by
  refine ⟨rfl, fun s hp => executorStep_of_paused hp, fun s t h => ⟨fun hs ht => ?_, fun hs ht => ?_⟩⟩
  · obtain hsame | ⟨-, hset⟩ | ⟨hclear, -⟩ := step_paused_cases h
    · simp [hs, ht] at hsame
    · exact hset
    · simp [ht] at hclear
  · obtain hsame | ⟨hrunning, -⟩ | ⟨-, hevent⟩ := step_paused_cases h
    · simp [hs, ht] at hsame
    · simp [hs] at hrunning
    · exact hevent

end Sys2Proof.Machine
end

section
/-! O15 and O55: the values that reset leaves, and the invariants there and after the boot loads. -/

namespace Sys2Proof.Machine

theorem State.afterReset_inv (params : Config.Params) (grid : Grid) (keys : Keys) :
    (State.afterReset params grid keys).Inv :=
  State.inv_of_tick_begins rfl (fun _ _ => Nat.zero_le _) (State.faultInv_of_none rfl)

theorem State.launch_inv (params : Config.Params) (grid : Grid) (keys : Keys) (image : List Byte) :
    (State.launch params grid keys image).Inv :=
  ((State.afterReset_inv params grid keys).writeBytes _ _).writeBytes _ _

theorem State.launch_mem_wf (params : Config.Params) (grid : Grid) (keys : Keys) (image : List Byte) :
    (State.launch params grid keys image).mem.wf = true :=
  State.writeBytes_wf (State.writeBytes_wf Memory.wf_nil _ _) _ _

/-- Settles O15: reset leaves no record, an empty stack, empty memory and a tick about to begin, and the loads write
memory alone. -/
theorem resetMeetsInvariants : Obligations.ResetMeetsInvariants :=
  ⟨Memory.wf_nil, State.afterReset_inv _ _ _, fun params grid keys =>
    ⟨Memory.wf_nil, State.afterReset_inv params grid keys, fun image =>
      ⟨State.launch_mem_wf params grid keys image, State.launch_inv params grid keys image⟩⟩⟩

theorem State.afterReset_memRead (params : Config.Params) (grid : Grid) (keys : Keys) (a : Nat) :
    (State.afterReset params grid keys).memRead a = 0x00 := rfl

theorem State.afterReset_reg (params : Config.Params) (grid : Grid) (keys : Keys) (r : Nibble) :
    (State.afterReset params grid keys).reg r = 0x00 := by
  simp [State.reg, State.afterReset]

/-- Settles O55: memory and the registers by the two lemmas above, every other value as `State.afterReset` states it. -/
theorem resetValues : Obligations.ResetValues := by
  rintro params grid keys _ rfl
  exact ⟨State.afterReset_memRead params grid keys, State.afterReset_reg params grid keys, rfl, rfl, rfl, rfl, rfl, rfl,
    rfl, rfl, rfl, rfl, rfl, rfl⟩

end Sys2Proof.Machine
end

section
/-! O6, O13, O18 and O46: the fetch, and memory followed from the instruction out to the move. Only Fx33 and Fx55 store,
each a run of bytes from I on (R56). -/

namespace Sys2Proof.Machine

/-! ### The fetch (R53, R55) -/

/-- R53: the first byte fetched is the high half of the opcode. -/
theorem opcodeOfBytes_high (first second : Byte) : (opcodeOfBytes first second).extractLsb' 8 8 = first :=
  BitVec.extractLsb'_append_eq_left

/-- R53: the second byte fetched is the low half of the opcode. -/
theorem opcodeOfBytes_low (first second : Byte) : (opcodeOfBytes first second).extractLsb' 0 8 = second :=
  BitVec.extractLsb'_append_eq_right

theorem wrapAddr_mod (a : Nat) : wrapAddr (a % Config.memSize) = wrapAddr a := Nat.mod_mod a Config.memSize

/-- Addresses that agree mod 4096 still do after the same step on (R51). -/
theorem wrapAddr_congr_add {a b : Nat} (h : wrapAddr a = wrapAddr b) (k : Nat) : wrapAddr (a + k) = wrapAddr (b + k) :=
  Nat.ModEq.add_right k h

theorem wrapAddr_pc (s : State) : wrapAddr s.pc.toNat = s.pc.toNat := Nat.mod_eq_of_lt s.pc.isLt

/-- Settles O6: each half of the opcode is the byte read for it, and the read reduces its address (R51). -/
theorem fetchIsBigEndian : Obligations.FetchIsBigEndian := by
  intro s
  refine ⟨opcodeOfBytes_high _ _, (opcodeOfBytes_low _ _).trans ?_⟩
  exact s.memRead_congr (wrapAddr_mod (s.pc.toNat + 1)).symm

/-! ### The instructions that store (R56) -/

/-- R56: an instruction leaves memory, or is one of the two that store a run of bytes from I on. -/
theorem exec_mem_cases {i : Instr} {s t : State} (h : exec i s = .next t) :
    t.mem = s.mem ∨
    (∃ x, i = .ldBVx x ∧ t = s.writeBytes (s.indexAddr 0) (decimalDigits (s.reg x))) ∨
    ∃ x, i = .storeRegs x ∧ t = s.writeBytes (s.indexAddr 0) (s.regsThrough x) := by
  cases i
  case ret => obtain ⟨-, rfl⟩ | ⟨a, rest, -, rfl⟩ := execRet_cases h <;> exact .inl rfl
  case call nnn => obtain ⟨-, rfl⟩ | ⟨-, rfl⟩ := execCall_cases h <;> exact .inl rfl
  all_goals obtain rfl := Host.Outcome.next.inj h
  case ldBVx x => exact .inr (.inl ⟨x, rfl, rfl⟩)
  case storeRegs x => exact .inr (.inr ⟨x, rfl, rfl⟩)
  case seImm | sneImm | seReg | sneReg | skp | sknp => exact .inl (s.skipIf_mem _)
  all_goals exact .inl rfl

/-- Settles O18: an address that neither Fx33 nor Fx55 stores to is outside the run of bytes written. -/
theorem memoryWriters : Obligations.MemoryWriters := by
  intro i s t a h hstores
  obtain hmem | ⟨x, rfl, rfl⟩ | ⟨x, rfl, rfl⟩ := exec_mem_cases h
  · simp only [State.memRead, hmem]
  · exact s.memRead_writeBytes_other _ _ a fun k hk ha => hstores ⟨k, hk, ha⟩
  · refine s.memRead_writeBytes_other _ _ a fun k hk ha => hstores ⟨k, ?_, ha⟩
    rw [s.regsThrough_length] at hk
    exact Nat.le_of_lt_succ hk

/-- R208: `Fx55` puts V[r], for r up to x, wherever an address names I + r. -/
theorem State.memRead_storedReg (s : State) {x r : Nibble} (hr : r.toNat ≤ x.toNat) {a : Nat}
    (ha : wrapAddr a = wrapAddr (s.indexAddr r.toNat)) :
    (s.writeBytes (s.indexAddr 0) (s.regsThrough x)).memRead a = s.reg r := by
  have hlen := s.regsThrough_length x
  have hfits : (s.regsThrough x).length ≤ Config.memSize := by
    have := x.isLt
    simp only [hlen, Config.memSize]
    omega
  have hlt : r.toNat < (s.regsThrough x).length := by omega
  rw [State.memRead_congr _ ha, s.memRead_storedFromI _ hfits _ hlt, s.regsThrough_getElem]

/-- Settles O46: the fetch reads I and I + 1, where `Fx55` has put V0 and V1. -/
theorem storeIsSeenByNextFetch : Obligations.StoreIsSeenByNextFetch := by
  intro x s hx hpc
  have h0 : wrapAddr s.pc.toNat = wrapAddr (s.indexAddr 0) := (wrapAddr_pc s).trans hpc.symm
  have h1 : wrapAddr (s.pc.toNat + 1) = wrapAddr (s.indexAddr 1) := wrapAddr_congr_add h0 1
  refine ⟨_, rfl, ?_⟩
  rw [State.fetchOpcode, State.fetch16, State.writeBytes_pc, s.memRead_storedReg (r := 0x0) (Nat.zero_le _) h0,
    s.memRead_storedReg (r := 0x1) hx h1]

/-! ### The canonical form (R50, R51) -/

theorem exec_keeps_mem_wf {i : Instr} {s t : State} (hs : s.mem.wf = true) (h : exec i s = .next t) :
    t.mem.wf = true := by
  obtain hmem | ⟨x, -, rfl⟩ | ⟨x, -, rfl⟩ := exec_mem_cases h
  · rwa [hmem]
  · exact State.writeBytes_wf hs _ _
  · exact State.writeBytes_wf hs _ _

theorem executorStep_keeps_mem_wf {s t : State} (hs : s.mem.wf = true) (h : executorStep s = .next t) :
    t.mem.wf = true := by
  obtain ⟨-, rfl⟩ | ⟨-, -, ⟨i, -, hi⟩ | ⟨-, rfl⟩⟩ := executorStep_cases h
  · exact hs
  · exact exec_keeps_mem_wf (s := s.advance) hs hi
  · exact hs

@[simp] theorem State.afterStep_mem (s : State) : s.afterStep.mem = s.mem := by
  obtain e | e | ⟨-, e⟩ := s.afterStep_cases <;> simp [e]

theorem runStep_keeps_mem_wf {s t : State} (hs : s.mem.wf = true) (h : runStep s = .next t) : t.mem.wf = true := by
  obtain ⟨-, rfl⟩ | ⟨-, -, rfl⟩ | ⟨-, -, u, hu, rfl⟩ := runStep_cases h
  · exact hs
  · simpa using hs
  · simpa using executorStep_keeps_mem_wf hs hu

/-- A reset empties memory, the loads write runs of bytes, and the key events leave it. -/
theorem deliver_keeps_mem_wf {e : HostEvent} {s t : State} (hs : s.mem.wf = true) (h : deliver e s = .next t) :
    t.mem.wf = true := by
  obtain ⟨-, -, rfl⟩ | ⟨-, -, rfl⟩ | ⟨bytes, -, -, -, rfl⟩ | ⟨code, -, -, -, rfl⟩ | ⟨code, -, -, -, rfl⟩ |
    ⟨code, -, -, rfl⟩ := deliver_cases h
  · exact Memory.wf_nil
  · exact State.writeBytes_wf hs _ _
  · exact State.writeBytes_wf hs _ _
  all_goals exact hs

/-- Settles O13: a move is one of the block by itself or an outside event, and all they do to memory is to empty it or to
write bytes at wrapped addresses. -/
theorem stepKeepsMemoryCanonical : Obligations.StepKeepsMemoryCanonical := by
  intro s t hs h
  obtain ⟨rest, ⟨hrun, -⟩ | ⟨e, -, he⟩⟩ := step_cases h
  · exact runStep_keeps_mem_wf (s := { s with inputs := rest }) hs hrun
  · exact deliver_keeps_mem_wf (s := { s with inputs := rest }) hs he

end Sys2Proof.Machine
end

section
/-! O1, O2, O3 and O4: the decoder and the encoder. An opcode is the concatenation of its fields (R72), so a family's
branch of the decode tree (R75) is compared with its layout field by field. -/

namespace Sys2Proof

/-! ### From an opcode to its instruction and back -/

section
variable {op : Opcode} {f n : Nibble} {kk : Byte}

theorem encodeNNN_of_family (hf : fieldF op = f) : encodeNNN f (fieldNNN op) = op := hf ▸ encodeNNN_fields op

theorem encodeXKK_of_family (hf : fieldF op = f) : encodeXKK f (fieldX op) (fieldKK op) = op :=
  hf ▸ encodeXKK_fields op

theorem encodeXKK_of_fields (hf : fieldF op = f) (hkk : fieldKK op = kk) : encodeXKK f (fieldX op) kk = op :=
  hkk ▸ encodeXKK_of_family hf

theorem encodeXYN_of_family (hf : fieldF op = f) : encodeXYN f (fieldX op) (fieldY op) (fieldN op) = op :=
  hf ▸ encodeXYN_fields op

theorem encodeXYN_of_fields (hf : fieldF op = f) (hn : fieldN op = n) : encodeXYN f (fieldX op) (fieldY op) n = op :=
  hn ▸ encodeXYN_of_family hf

/-- An instruction that a decoding may answer: well formed, and with `op` for its encoding. -/
def Instr.StandsFor (i : Instr) (op : Opcode) : Prop :=
  encode i = op ∧ i.wellFormed = true

/-- A decoding of `op` answers an error or an instruction that stands for `op`. -/
def DecodesFaithfully (op : Opcode) (r : Except DecodeError Instr) : Prop :=
  ∀ i, r = .ok i → i.StandsFor op

theorem decodesFaithfully_ok {i : Instr} (h : i.StandsFor op) : DecodesFaithfully op (.ok i) := by
  rintro _ ⟨⟩
  exact h

theorem decodesFaithfully_error (e : DecodeError) : DecodesFaithfully op (.error e) := nofun

theorem decodesFaithfully_ite {c : Prop} [Decidable c] {i : Instr} {r : Except DecodeError Instr}
    (hi : c → i.StandsFor op) (hr : DecodesFaithfully op r) : DecodesFaithfully op (if c then .ok i else r) := by
  split
  next hc => exact decodesFaithfully_ok (hi hc)
  next => exact hr

theorem sysFieldOk_iff {nnn : Addr} : sysFieldOk nnn = true ↔ nnn ≠ 0x0E0 ∧ nnn ≠ 0x0EE := by
  simp only [sysFieldOk, Bool.and_eq_true, bne_iff_ne]

/-- R103: where the two words of CLS and RET are excluded, an opcode of family 0 has the address field of a SYS. -/
theorem sysFieldOk_of_family0 (hf : fieldF op = 0x0) (hcls : op ≠ 0x00E0) (hret : op ≠ 0x00EE) :
    sysFieldOk (fieldNNN op) = true := by
  have hop : encodeNNN 0x0 (fieldNNN op) = op := encodeNNN_of_family hf
  exact sysFieldOk_iff.mpr ⟨fun h => hcls (hop.symm.trans (congrArg (encodeNNN 0x0) h)),
    fun h => hret (hop.symm.trans (congrArg (encodeNNN 0x0) h))⟩

theorem decodeFamily0_standsFor (hf : fieldF op = 0x0) : (decodeFamily0 op).StandsFor op := by
  unfold decodeFamily0
  split
  next hcls => exact ⟨hcls.symm, rfl⟩
  next hcls =>
    split
    next hret => exact ⟨hret.symm, rfl⟩
    next hret => exact ⟨encodeNNN_of_family hf, sysFieldOk_of_family0 hf hcls hret⟩

/-- The branch taken fixes the low nibble, the one field that the instruction does not carry. -/
theorem decodeFamily8_faithful (hf : fieldF op = 0x8) : DecodesFaithfully op (decodeFamily8 op) := by
  unfold decodeFamily8
  repeat refine decodesFaithfully_ite (fun hn => ⟨encodeXYN_of_fields hf hn, rfl⟩) ?_
  exact decodesFaithfully_error _

/-- The branch taken fixes the low byte, the one field that the instruction does not carry. -/
theorem decodeFamilyE_faithful (hf : fieldF op = 0xE) : DecodesFaithfully op (decodeFamilyE op) := by
  unfold decodeFamilyE
  repeat refine decodesFaithfully_ite (fun hkk => ⟨encodeXKK_of_fields hf hkk, rfl⟩) ?_
  exact decodesFaithfully_error _

theorem decodeFamilyF_faithful (hf : fieldF op = 0xF) : DecodesFaithfully op (decodeFamilyF op) := by
  unfold decodeFamilyF
  repeat refine decodesFaithfully_ite (fun hkk => ⟨encodeXKK_of_fields hf hkk, rfl⟩) ?_
  exact decodesFaithfully_error _

theorem decodeOpcode_faithful (op : Opcode) : DecodesFaithfully op (decodeOpcode op) := by
  obtain h | h | h | h | h | h | h | h | h | h | h | h | h | h | h | h := nibble_cases (fieldF op)
  · exact decodeOpcode_family0 h ▸ decodesFaithfully_ok (decodeFamily0_standsFor h)
  · exact decodeOpcode_family1 h ▸ decodesFaithfully_ok ⟨encodeNNN_of_family h, rfl⟩
  · exact decodeOpcode_family2 h ▸ decodesFaithfully_ok ⟨encodeNNN_of_family h, rfl⟩
  · exact decodeOpcode_family3 h ▸ decodesFaithfully_ok ⟨encodeXKK_of_family h, rfl⟩
  · exact decodeOpcode_family4 h ▸ decodesFaithfully_ok ⟨encodeXKK_of_family h, rfl⟩
  · exact decodeOpcode_family5 h ▸ decodesFaithfully_ok ⟨encodeXYN_of_family h, rfl⟩
  · exact decodeOpcode_family6 h ▸ decodesFaithfully_ok ⟨encodeXKK_of_family h, rfl⟩
  · exact decodeOpcode_family7 h ▸ decodesFaithfully_ok ⟨encodeXKK_of_family h, rfl⟩
  · exact decodeOpcode_family8 h ▸ decodeFamily8_faithful h
  · exact decodeOpcode_family9 h ▸ decodesFaithfully_ok ⟨encodeXYN_of_family h, rfl⟩
  · exact decodeOpcode_familyA h ▸ decodesFaithfully_ok ⟨encodeNNN_of_family h, rfl⟩
  · exact decodeOpcode_familyB h ▸ decodesFaithfully_ok ⟨encodeNNN_of_family h, rfl⟩
  · exact decodeOpcode_familyC h ▸ decodesFaithfully_ok ⟨encodeXKK_of_family h, rfl⟩
  · exact decodeOpcode_familyD h ▸ decodesFaithfully_ok ⟨encodeXYN_of_family h, rfl⟩
  · exact decodeOpcode_familyE h ▸ decodeFamilyE_faithful h
  · exact decodeOpcode_familyF h ▸ decodeFamilyF_faithful h

end

/-- Settles O2: every branch of the decode tree answers an instruction whose layout puts the opcode's fields together
again. -/
theorem encodeDecodeRoundTrip : Obligations.EncodeDecodeRoundTrip := decodeOpcode_faithful

/-! ### From an instruction to its opcode and back -/

/-- R103: the address field of a SYS makes neither the word of CLS nor that of RET. -/
theorem decodeFamily0_of_sysFieldOk {op : Opcode} (h : sysFieldOk (fieldNNN op) = true) :
    decodeFamily0 op = .sys (fieldNNN op) := by
  obtain ⟨hcls, hret⟩ := sysFieldOk_iff.mp h
  rw [decodeFamily0, if_neg fun h => hcls (congrArg fieldNNN h), if_neg fun h => hret (congrArg fieldNNN h)]

/-- By the instruction's family: its encoding has that family's nibble, and the branch reads the fields that the layout
has put there. -/
theorem decodeOpcode_encode {i : Instr} (h : i.wellFormed = true) : decodeOpcode (encode i) = .ok i := by
  cases i
  case cls | ret => rfl
  case sys nnn =>
    have hfield : sysFieldOk (fieldNNN (encodeNNN 0x0 nnn)) = true := (fieldNNN_encodeNNN 0x0 nnn).symm ▸ h
    rw [encode, decodeOpcode_family0 (fieldF_encodeNNN 0x0 nnn), decodeFamily0_of_sysFieldOk hfield, fieldNNN_encodeNNN]
  case jp => simp [encode, decodeOpcode_family1]
  case call => simp [encode, decodeOpcode_family2]
  case seImm => simp [encode, decodeOpcode_family3]
  case sneImm => simp [encode, decodeOpcode_family4]
  case seReg => simp [encode, decodeOpcode_family5]
  case ldImm => simp [encode, decodeOpcode_family6]
  case addImm => simp [encode, decodeOpcode_family7]
  case ldReg | orReg | andReg | xorReg | addReg | subReg | shr | subn | shl =>
    simp [encode, decodeOpcode_family8, decodeFamily8]
  case sneReg => simp [encode, decodeOpcode_family9]
  case ldI => simp [encode, decodeOpcode_familyA]
  case jpV0 => simp [encode, decodeOpcode_familyB]
  case rnd => simp [encode, decodeOpcode_familyC]
  case drw => simp [encode, decodeOpcode_familyD]
  case skp | sknp => simp [encode, decodeOpcode_familyE, decodeFamilyE]
  case ldVxDt | ldVxKey | ldDtVx | ldStVx | addIVx | ldFVx | ldBVx | storeRegs | loadRegs =>
    simp [encode, decodeOpcode_familyF, decodeFamilyF]

/-- R71: the decoder on bytes is the decoder on the opcode that the first two make, and leaves the bytes after them. -/
theorem decode_opcodeBytes {op : Opcode} {i : Instr} (h : decodeOpcode op = .ok i) (rest : List Byte) :
    decode (opcodeBytes op ++ rest) = .ok (i, rest) := by
  simp [opcodeBytes, decode, opcodeOfBytes_opcodeBytes, h]

/-- Settles O1: from the opcode by the instruction's family, and from the bytes because they make that opcode. -/
theorem decodeEncodeRoundTrip : Obligations.DecodeEncodeRoundTrip := by
  intro i rest hwf
  have hop : decodeOpcode (encode i) = .ok i := decodeOpcode_encode hwf
  exact ⟨hop, decode_opcodeBytes hop rest⟩

/-! ### The illegal opcodes (R76) -/

section
variable {op : Opcode}

/-- A branch that answers an instruction is not the one that refuses. -/
theorem ite_ok_eq_error_iff {c : Prop} [Decidable c] {i : Instr} {r : Except DecodeError Instr} {e : DecodeError} :
    (if c then .ok i else r) = .error e ↔ ¬c ∧ r = .error e := by
  by_cases hc : c <;> simp [hc]

theorem decodeFamily8_refuses_iff :
    decodeFamily8 op = .error (.unrecognizedInstruction op) ↔
      fieldN op ∈ ([0x8, 0x9, 0xA, 0xB, 0xC, 0xD, 0xF] : List Nibble) := by
  simp only [decodeFamily8, ite_ok_eq_error_iff, and_true]
  generalize fieldN op = n
  revert n
  decide

theorem decodeFamilyE_refuses_iff :
    decodeFamilyE op = .error (.unrecognizedInstruction op) ↔ fieldKK op ∉ ([0x9E, 0xA1] : List Byte) := by
  simp [decodeFamilyE, ite_ok_eq_error_iff]

theorem decodeFamilyF_refuses_iff :
    decodeFamilyF op = .error (.unrecognizedInstruction op) ↔
      fieldKK op ∉ ([0x07, 0x0A, 0x15, 0x18, 0x1E, 0x29, 0x33, 0x55, 0x65] : List Byte) := by
  simp [decodeFamilyF, ite_ok_eq_error_iff]

/-- R77: outside families 8, E and F every opcode decodes. -/
theorem decodeOpcode_ok_of_family (h8 : fieldF op ≠ 0x8) (hE : fieldF op ≠ 0xE) (hF : fieldF op ≠ 0xF) :
    ∃ i, decodeOpcode op = .ok i := by
  obtain h | h | h | h | h | h | h | h | h | h | h | h | h | h | h | h := nibble_cases (fieldF op)
  exacts [⟨_, decodeOpcode_family0 h⟩, ⟨_, decodeOpcode_family1 h⟩, ⟨_, decodeOpcode_family2 h⟩,
    ⟨_, decodeOpcode_family3 h⟩, ⟨_, decodeOpcode_family4 h⟩, ⟨_, decodeOpcode_family5 h⟩,
    ⟨_, decodeOpcode_family6 h⟩, ⟨_, decodeOpcode_family7 h⟩, absurd h h8, ⟨_, decodeOpcode_family9 h⟩,
    ⟨_, decodeOpcode_familyA h⟩, ⟨_, decodeOpcode_familyB h⟩, ⟨_, decodeOpcode_familyC h⟩,
    ⟨_, decodeOpcode_familyD h⟩, absurd h hE, absurd h hF]

end

/-- Settles O3: by the family, and within families 8, E and F by the branches that decode. -/
theorem illegalOpcodesExactly : Obligations.IllegalOpcodesExactly := by
  intro op
  refine ⟨?_, (Machine.decodeOpcode_okOrUnrecognized op).resolve_right⟩
  by_cases h8 : fieldF op = 0x8
  · simp [decodeOpcode_family8 h8, decodeFamily8_refuses_iff, h8]
  by_cases hE : fieldF op = 0xE
  · simp [decodeOpcode_familyE hE, decodeFamilyE_refuses_iff, hE]
  by_cases hF : fieldF op = 0xF
  · simp [decodeOpcode_familyF hF, decodeFamilyF_refuses_iff, hF]
  obtain ⟨i, hi⟩ := decodeOpcode_ok_of_family h8 hE hF
  refine iff_of_false (by simp [hi]) ?_
  rintro (⟨h, -⟩ | ⟨h, -⟩ | ⟨h, -⟩)
  exacts [h8 h, hE h, hF h]

/-- Settles O4: the eight words are fixed, so the decoder is run on them. -/
theorem sampleWordsDecode : Obligations.SampleWordsDecode := by
  unfold Obligations.SampleWordsDecode
  decide

end Sys2Proof
end

section
/-! O5 and O7: the Executor's step (R70), and the move around it. -/

namespace Sys2Proof.Machine

section
variable {s : State}

/-- R70: neither halted nor waiting, the Executor runs the instruction at pc, pc advanced by 2 first. -/
theorem executorStep_decoded {i : Instr} (hf : s.fault = none) (hp : s.paused = false)
    (hi : decodeOpcode s.fetchOpcode = .ok i) : executorStep s = exec i { s with pc := s.pc + 2 } := by
  rw [executorStep_running hf hp, executeOpcode_of_ok hi, s.advance_eq]

/-- R76, R231, D7: an illegal opcode is recorded with the address it was fetched from; pc keeps that address plus 2. -/
theorem executorStep_illegal {e : DecodeError} (hf : s.fault = none) (hp : s.paused = false)
    (he : decodeOpcode s.fetchOpcode = .error e) :
    executorStep s =
      .next { s with pc := s.pc + 2, fault := some ⟨.unrecognizedInstruction, s.pc, s.fetchOpcode⟩ } := by
  rw [executorStep_running hf hp, executeOpcode_of_error he, s.advance_raise_eq]

/-- R245: a move that executes an instruction is `exec` followed by the Scheduler's bookkeeping. -/
theorem runStep_decoded {i : Instr} (hf : s.fault = none) (hp : s.paused = false) (hsteps : 0 < s.stepsLeft)
    (hi : decodeOpcode s.fetchOpcode = .ok i) :
    runStep s = (Result.andThen (exec i { s with pc := s.pc + 2 }) fun t => .next t.afterStep) := by
  rw [runStep_running hf hsteps, executorStep_decoded hf hp hi]

end

/-- Settles O7: halted, waiting, a legal opcode, an illegal one. -/
theorem executorStepContract : Obligations.ExecutorStepContract := fun _ =>
  ⟨executorStep_halted, executorStep_paused, fun hf hp _ hi => executorStep_decoded hf hp hi,
    fun hf hp _ he => executorStep_illegal hf hp he⟩

/-- Settles O5: with no event left, or at a boundary marked quiet, the step is the block's own move, which decodes the
same opcode whatever the inputs are. -/
theorem stepRunsDecodedInstruction : Obligations.StepRunsDecodedInstruction := by
  intro s i hi
  constructor
  · rintro ⟨hinputs, hf, hp, hsteps⟩
    exact (step_undisturbed hinputs).trans (runStep_decoded hf hp hsteps hi)
  · intro rest hinputs hf hp hsteps
    exact (step_quiet hinputs).trans (runStep_decoded (s := { s with inputs := rest }) hf hp hsteps hi)

end Sys2Proof.Machine
end

section
/-! O21 to O26: families 0x0 to 0x5 and 0x9 (spec 40_flow, 42_misc). An opcode decodes to a well-formed instruction
exactly if it is that instruction's encoding; RET and CALL, whose meanings branch, are written out as record updates. -/

namespace Sys2Proof.Machine

/-! ### The decoder (R72, R75) -/

/-- The two round trips O1 and O2 together: a well-formed instruction has one opcode. -/
theorem decodeOpcode_eq_ok_iff {i : Instr} (hwf : i.wellFormed = true) (op : Opcode) :
    decodeOpcode op = .ok i ↔ op = encode i := by
  constructor
  · intro h
    obtain ⟨henc, -⟩ := encodeDecodeRoundTrip op i h
    exact henc.symm
  · rintro rfl
    exact decodeOpcode_encode hwf

/-! ### The stack (R102, R105) -/

section
variable {s : State}

theorem exec_ret_pop {a : Addr} {rest : List Addr} (h : s.stack = a :: rest) :
    exec .ret s = .next { s with pc := a, stack := rest } :=
  (execRet_pop h).trans (congrArg Host.Outcome.next (State.setPc_toNat _ a))

theorem exec_ret_empty (h : s.stack = []) :
    exec .ret s = .next { s with fault := some ⟨.stackUnderflow, s.pc - 2, 0x00EE⟩ } :=
  execRet_empty h

theorem State.stackFull_eq_false_iff : s.stackFull = false ↔ s.params.stackCap ≠ some s.stack.length := by
  rw [ne_eq, ← s.stackFull_iff, Bool.not_eq_true]

theorem exec_call_room (nnn : Addr) (h : s.params.stackCap ≠ some s.stack.length) :
    exec (.call nnn) s = .next { s with pc := nnn, stack := s.pc :: s.stack } :=
  (execCall_room nnn (State.stackFull_eq_false_iff.mpr h)).trans
    (congrArg Host.Outcome.next (State.setPc_toNat _ nnn))

theorem exec_call_full (nnn : Addr) (h : s.params.stackCap = some s.stack.length) :
    exec (.call nnn) s = .next { s with fault := some ⟨.stackOverflow, s.pc - 2, encodeNNN 0x2 nnn⟩ } :=
  execCall_full nnn (s.stackFull_iff.mpr h)

end

/-! ### The skip (R100) -/

/-- A skip by a test that decides `p` is a skip where `p` holds. -/
theorem State.skipIf_eq_ite {s : State} {c : Bool} {p : Prop} [Decidable p] (h : c = true ↔ p) :
    s.skipIf c = { s with pc := if p then s.pc + 2 else s.pc } := by
  simp only [s.skipIf_eq, h]

/-! ### The statements -/

/-- Settles O21: the decoding by the two round trips, and the grid that CLS leaves is the clear one. -/
theorem clsClearsGrid : Obligations.ClsClearsGrid :=
  ⟨decodeOpcode_eq_ok_iff rfl, fun s => ⟨s.clearDisplay, rfl, rfl, Grid.cell_clear⟩⟩

/-- Settles O22: RET by its two cases; the entry that a CALL pushes is the pc it began with, so the RET after it puts
pc and the stack back. -/
theorem retPopsOrUnderflows : Obligations.RetPopsOrUnderflows := by
  refine ⟨decodeOpcode_eq_ok_iff rfl, fun s a rest => exec_ret_pop, ?underflow, ?afterCall⟩
  case underflow =>
    intro s h
    exact ⟨_, exec_ret_empty h, rfl⟩
  case afterCall =>
    intro nnn s h
    exact ⟨_, exec_call_room nnn h, fun a => exec_ret_pop rfl⟩

/-- Settles O23: away from the words of CLS and RET a SYS is well formed, so it decodes to itself. -/
theorem sysDoesNothingJpJumps : Obligations.SysDoesNothingJpJumps := by
  refine ⟨?sysDecodes, fun nnn s => rfl, ?jp⟩
  case sysDecodes =>
    intro nnn hcls hret
    exact decodeOpcode_encode (i := .sys nnn) (sysFieldOk_iff.mpr ⟨hcls, hret⟩)
  case jp =>
    intro nnn s
    exact ⟨decodeOpcode_encode (i := .jp nnn) rfl, congrArg Host.Outcome.next (s.setPc_toNat nnn)⟩

/-- Settles O24: a push overflows exactly at the cap. -/
theorem callPushesOrOverflows : Obligations.CallPushesOrOverflows := fun nnn _ =>
  ⟨decodeOpcode_encode (i := .call nnn) rfl, exec_call_room nnn, exec_call_full nnn⟩

/-- Settles O25: both tests compare V[x] with the immediate. -/
theorem skipsOnImmediate : Obligations.SkipsOnImmediate := fun x kk _ =>
  ⟨decodeOpcode_encode (i := .seImm x kk) rfl, decodeOpcode_encode (i := .sneImm x kk) rfl,
    congrArg Host.Outcome.next (State.skipIf_eq_ite beq_iff_eq),
    congrArg Host.Outcome.next (State.skipIf_eq_ite bne_iff_ne)⟩

/-- Settles O26: both tests compare V[x] with V[y]; N takes part in the decoding only. -/
theorem skipsOnRegisters : Obligations.SkipsOnRegisters := fun x y n _ =>
  ⟨decodeOpcode_encode (i := .seReg x y n) rfl, decodeOpcode_encode (i := .sneReg x y n) rfl,
    congrArg Host.Outcome.next (State.skipIf_eq_ite beq_iff_eq),
    congrArg Host.Outcome.next (State.skipIf_eq_ite bne_iff_ne)⟩

end Sys2Proof.Machine
end

section
/-! O27 to O32: families 0x6 to 0x8 (spec 41_alu). An instruction here writes one register, or VF and then one register;
one lemma for each kind says what every register holds afterwards. -/

namespace Sys2Proof.Machine

/-! ### The two kinds of register write -/

/-- R132: VF takes the flag, then `x` its result, which a later read finds even in VF. -/
theorem State.reg_flagged (s : State) (x r : Nibble) (f b : Byte) :
    ((s.setReg vf f).setReg x b).reg r = if r = x then b else if r = vf then f else s.reg r := by
  rw [State.reg_setReg, State.reg_setReg]

theorem State.reg_flagged_toNat (s : State) (x r : Nibble) (f b : Byte) :
    (((s.setReg vf f).setReg x b).reg r).toNat =
      if r = x then b.toNat else if r = vf then f.toNat else (s.reg r).toNat := by
  rw [State.reg_flagged, apply_ite BitVec.toNat, apply_ite BitVec.toNat]

theorem exec_writes_one_reg {i : Instr} {s : State} {x : Nibble} {b : Byte} (h : exec i s = .next (s.setReg x b)) :
    ∃ t, exec i s = .next t ∧ t = { s with v := t.v } ∧ ∀ r, t.reg r = if r = x then b else s.reg r :=
  ⟨_, h, rfl, fun r => s.reg_setReg x r b⟩

/-! ### The results -/

theorem sumOf_low_byte (a b : Byte) : (BitVec.ofNat 8 (sumOf a b)).toNat = (a.toNat + b.toNat) % 256 :=
  BitVec.toNat_ofNat _ _

theorem noBorrowFlag_eq_ite (a b : Byte) : noBorrowFlag a b = if a.toNat > b.toNat then 1 else 0 := by
  simp [noBorrowFlag, flagOf]

section
variable (toFlag : Prop) [Decidable toFlag] (a : Byte)

/-- R139, D5: the shift to the right leaves 0 of the flag of 8xy6, which has nothing above bit 0. -/
theorem shiftRight_flagged_toNat :
    ((if toFlag then lowBitFlag a else a) >>> 1).toNat = if toFlag then 0 else a.toNat / 2 := by
  rw [BitVec.toNat_ushiftRight, Nat.shiftRight_eq_div_pow, pow_one]
  split
  · rw [lowBitFlag_toNat, Nat.div_eq_of_lt (Nat.mod_lt _ two_pos)]
  · rfl

/-- R141, D5: the shift to the left leaves 0 of the flag of 8xyE, which has nothing below bit 7. -/
theorem shiftLeft_flagged_toNat :
    ((if toFlag then highBitFlag a else a) <<< 1).toNat = if toFlag then 0 else 2 * a.toNat % 256 := by
  rw [BitVec.toNat_shiftLeft, Nat.shiftLeft_eq, pow_one, Nat.mul_comm]
  split
  · rw [highBitFlag_toNat]
    split <;> rfl
  · rfl

end

/-- D5: where the minuend is the new flag, the difference wraps. -/
theorem flag_sub_toNat (a b : Byte) :
    (noBorrowFlag a b - b).toNat = ((if a.toNat > b.toNat then 1 else 0) + (256 - b.toNat)) % 256 := by
  rw [BitVec.toNat_sub, noBorrowFlag_toNat, Nat.add_comm]

/-- D5: where the subtrahend is the new flag, nothing wraps: the flag is 1 over a positive minuend only. -/
theorem sub_flag_toNat (a b : Byte) :
    (a - noBorrowFlag a b).toNat = a.toNat - if a.toNat > b.toNat then 1 else 0 := by
  have hle : (noBorrowFlag a b).toNat ≤ a.toNat := by
    rw [noBorrowFlag_toNat]
    split <;> omega
  rw [BitVec.toNat_sub_of_le hle, noBorrowFlag_toNat]

/-! ### The statements of R130 to R141 -/

/-- Settles O27: one register is written, with kk or with a sum of bytes, which wraps. -/
theorem loadAndAddImmediate : Obligations.LoadAndAddImmediate := by
  intro x kk s
  refine ⟨decodeOpcode_encode (i := .ldImm x kk) rfl, decodeOpcode_encode (i := .addImm x kk) rfl,
    exec_writes_one_reg rfl, _, rfl, rfl, fun r => ?_⟩
  rw [State.reg_setReg, apply_ite BitVec.toNat, BitVec.toNat_add]

/-- Settles O28: each of the four writes one register. -/
theorem copyAndLogic : Obligations.CopyAndLogic := fun x y _ =>
  ⟨⟨decodeOpcode_encode (i := .ldReg x y) rfl, exec_writes_one_reg rfl⟩,
    ⟨decodeOpcode_encode (i := .orReg x y) rfl, exec_writes_one_reg rfl⟩,
    ⟨decodeOpcode_encode (i := .andReg x y) rfl, exec_writes_one_reg rfl⟩,
    ⟨decodeOpcode_encode (i := .xorReg x y) rfl, exec_writes_one_reg rfl⟩⟩

/-- Settles O29: the sum is written last, so it stays where `x` is VF. -/
theorem addWithCarry : Obligations.AddWithCarry := by
  intro x y s
  refine ⟨decodeOpcode_encode (i := .addReg x y) rfl, _, rfl, rfl, fun r => ?_⟩
  rw [State.reg_flagged_toNat, sumOf_low_byte, carryFlag_toNat]

/-- Settles O30: the flag is written first, so an operand in VF reads it. -/
theorem subtractWithNoBorrow : Obligations.SubtractWithNoBorrow := by
  intro x y s
  refine ⟨⟨decodeOpcode_encode (i := .subReg x y) rfl, _, rfl, rfl, ?sub⟩,
    ⟨decodeOpcode_encode (i := .subn x y) rfl, _, rfl, rfl, ?subn⟩⟩
  all_goals
    intro f hf r
    rw [State.reg_flagged, State.reg_setReg, State.reg_setReg, noBorrowFlag_eq_ite, ← hf]

/-- Settles O31: where `x` is VF the shift takes the new flag, of which it leaves nothing. -/
theorem shiftsByOne : Obligations.ShiftsByOne := by
  intro x y s
  refine ⟨⟨decodeOpcode_encode (i := .shr x y) rfl, _, rfl, rfl, fun r => ?shr⟩,
    ⟨decodeOpcode_encode (i := .shl x y) rfl, _, rfl, rfl, fun r => ?shl⟩⟩
  case shr =>
    rw [State.reg_flagged_toNat, State.reg_setReg, shiftRight_flagged_toNat, lowBitFlag_toNat]
  case shl =>
    rw [State.reg_flagged_toNat, State.reg_setReg, shiftLeft_flagged_toNat, highBitFlag_toNat]

/-- Settles O32: each row of R142's table is its rule's statement above, read at VF and at the destination. -/
theorem flagRegisterAsOperand : Obligations.FlagRegisterAsOperand := by
  rintro z s hz _ _ rfl rfl
  refine ⟨?addVf, ?addOther, ?addBoth, ?subVf, ?subOther, ?subBoth, ?shrVf, ?shrOther, ?subnVf, ?subnOther, ?subnBoth,
    ?shlVf, ?shlOther⟩
  case addVf =>
    obtain ⟨-, t, ht, -, hreg⟩ := addWithCarry vf z s
    exact ⟨t, ht, by simp [hreg]⟩
  case addOther =>
    obtain ⟨-, t, ht, -, hreg⟩ := addWithCarry z vf s
    exact ⟨t, ht, by simp [hreg, hz.symm], by simp [hreg]⟩
  case addBoth =>
    obtain ⟨-, t, ht, -, hreg⟩ := addWithCarry vf vf s
    exact ⟨t, ht, by simp [hreg, Nat.two_mul]⟩
  case subVf =>
    obtain ⟨⟨-, t, ht, -, hreg⟩, -⟩ := subtractWithNoBorrow vf z s
    have hreg := hreg _ (noBorrowFlag_eq_ite _ _)
    exact ⟨t, ht, by simp only [hreg, hz, if_true, if_false, flag_sub_toNat]⟩
  case subOther =>
    obtain ⟨⟨-, t, ht, -, hreg⟩, -⟩ := subtractWithNoBorrow z vf s
    have hreg := hreg _ (noBorrowFlag_eq_ite _ _)
    exact ⟨t, ht, by simp only [hreg, hz.symm, if_true, if_false, noBorrowFlag_toNat],
      by simp only [hreg, hz, if_true, if_false, sub_flag_toNat]⟩
  case subBoth =>
    obtain ⟨⟨-, t, ht, -, hreg⟩, -⟩ := subtractWithNoBorrow vf vf s
    exact ⟨t, ht, by simp [hreg _ rfl]⟩
  case shrVf =>
    intro y
    obtain ⟨⟨-, t, ht, -, hreg⟩, -⟩ := shiftsByOne vf y s
    exact ⟨t, ht, by simp [hreg]⟩
  case shrOther =>
    obtain ⟨⟨-, t, ht, -, hreg⟩, -⟩ := shiftsByOne z vf s
    exact ⟨t, ht, by simp [hreg, hz.symm]⟩
  case subnVf =>
    obtain ⟨-, -, t, ht, -, hreg⟩ := subtractWithNoBorrow vf z s
    have hreg := hreg _ (noBorrowFlag_eq_ite _ _)
    exact ⟨t, ht, by simp only [hreg, hz, if_true, if_false, sub_flag_toNat]⟩
  case subnOther =>
    obtain ⟨-, -, t, ht, -, hreg⟩ := subtractWithNoBorrow z vf s
    have hreg := hreg _ (noBorrowFlag_eq_ite _ _)
    exact ⟨t, ht, by simp only [hreg, hz.symm, if_true, if_false, noBorrowFlag_toNat],
      by simp only [hreg, hz, if_true, if_false, flag_sub_toNat]⟩
  case subnBoth =>
    obtain ⟨-, -, t, ht, -, hreg⟩ := subtractWithNoBorrow vf vf s
    exact ⟨t, ht, by simp [hreg _ rfl]⟩
  case shlVf =>
    intro y
    obtain ⟨-, -, t, ht, -, hreg⟩ := shiftsByOne vf y s
    exact ⟨t, ht, by simp [hreg]⟩
  case shlOther =>
    obtain ⟨-, -, t, ht, -, hreg⟩ := shiftsByOne z vf s
    exact ⟨t, ht, by simp [hreg, hz.symm]⟩

end Sys2Proof.Machine
end

section
/-! O33 to O35: families 0xA to 0xC and Fx29 (spec 42_misc, 44_fgroup). A value written to I or to pc is the operand,
reduced to the register's width. -/

namespace Sys2Proof.Machine

/-! ### The values written to I and to pc -/

theorem exec_writes_i {i : Instr} {s : State} {n : Nat} (hn : n < 2 ^ 16) (h : exec i s = .next (s.setI n)) :
    ∃ t, exec i s = .next t ∧ t = { s with i := t.i } ∧ t.i.toNat = n :=
  ⟨_, h, rfl, by rw [State.setI_i, BitVec.toNat_ofNat, Nat.mod_eq_of_lt hn]⟩

/-- R206: unmasked as it is, V[x] * 5 is at most 1275. -/
theorem glyphAddr_lt (b : Byte) : glyphAddr b < 2 ^ 16 := by
  have := b.isLt
  unfold glyphAddr
  omega

/-! ### The statements -/

/-- Settles O33: both operands fit in the 16 bits of I. -/
theorem loadIndex : Obligations.LoadIndex := by
  intro s
  constructor
  · intro nnn
    exact ⟨decodeOpcode_encode (i := .ldI nnn) rfl, exec_writes_i (nnn.isLt.trans (by decide)) rfl⟩
  · intro x
    exact ⟨decodeOpcode_encode (i := .ldFVx x) rfl, exec_writes_i (glyphAddr_lt (s.reg x)) rfl⟩

/-- Settles O34: the sum is stored in the 12 bits of pc, which wraps it. -/
theorem jumpWithOffset : Obligations.JumpWithOffset := fun nnn s =>
  ⟨decodeOpcode_encode (i := .jpV0 nnn) rfl, s.setPc (s.jumpV0Target nnn), rfl, rfl,
    BitVec.toNat_ofNat (s.jumpV0Target nnn) 12⟩

/-- Settles O35: the draw is counted before V[x] is written, and changes no register. -/
theorem randomByteIsMasked : Obligations.RandomByteIsMasked := fun x kk s =>
  ⟨decodeOpcode_encode (i := .rnd x kk) rfl, _, rfl, rfl, fun r => s.drawByte.2.reg_setReg x r _⟩

end Sys2Proof.Machine
end

section
/-! O37 and O39: families 0xD and 0xE (spec 43_draw_keys). What plotting a sprite does to a grid is said of any grid, by
the cells covered; a skip on a key, by whether V[x] names a key. -/

namespace Sys2Proof.Machine

/-! ### Plotting a sprite -/

section
variable {s : State} {x y n : Nibble} {X Y : Nat}

open Classical in
/-- R181: the sprite's points name a covered cell once. -/
theorem State.hits_spritePoints (hX : X < 64) (hY : Y < 32) :
    hits (s.spritePoints x y n) X Y = if s.SpriteCovers x y n X Y then 1 else 0 := by
  rw [hits_of_pairwise _ (s.spritePoints_pairwise x y n)]
  simp only [s.spriteCovers_iff x y n hX hY]

theorem Grid.cell_plot_covered (g : Grid) (h : s.SpriteCovers x y n X Y) :
    (g.plot (s.spritePoints x y n)).1.cell X Y = !g.cell X Y := by
  obtain ⟨hX, hY⟩ := State.spriteCovers_lt h
  rw [Grid.cell_plot, State.hits_spritePoints hX hY, if_pos h]
  exact Bool.bne_true _

theorem Grid.cell_plot_uncovered (g : Grid) (hX : X < 64) (hY : Y < 32) (h : ¬s.SpriteCovers x y n X Y) :
    (g.plot (s.spritePoints x y n)).1.cell X Y = g.cell X Y := by
  rw [Grid.cell_plot, State.hits_spritePoints hX hY, if_neg h]
  exact Bool.bne_false _

/-- R180: plotting a sprite collides exactly if a cell it covers was set. -/
theorem Grid.plot_collided_iff (g : Grid) :
    (g.plot (s.spritePoints x y n)).2 = true ↔ ∃ X Y, s.SpriteCovers x y n X Y ∧ g.cell X Y = true := by
  rw [Grid.plot_collided _ _ (s.spritePoints_pairwise x y n), List.any_eq_true]
  constructor
  · rintro ⟨p, hp, hset⟩
    have hsame : SameCell p (p.1 % 64, p.2 % 32) := ⟨(Nat.mod_mod _ _).symm, (Nat.mod_mod _ _).symm⟩
    refine ⟨p.1 % 64, p.2 % 32, (s.spriteCovers_iff x y n ?_ ?_).mpr ⟨p, hp, hsame⟩, g.cell_congr hsame ▸ hset⟩
    · exact Nat.mod_lt _ (by decide)
    · exact Nat.mod_lt _ (by decide)
  · rintro ⟨X, Y, hcov, hset⟩
    obtain ⟨hX, hY⟩ := State.spriteCovers_lt hcov
    obtain ⟨p, hp, hsame⟩ := (s.spriteCovers_iff x y n hX hY).mp hcov
    exact ⟨p, hp, (g.cell_congr hsame).trans hset⟩

end

theorem State.reg_vf_setReg (s : State) (b : Byte) : (s.setReg vf b).reg vf = b := by
  rw [State.reg_setReg, if_pos rfl]

/-! ### The keys -/

section
variable {k : Keys} {code : Byte}

theorem Keys.isPressed_of_lt (h : code.toNat < 16) : k.isPressed code = k[code.toNat] := dif_pos h

/-- D10: a code above 0xF names no key. -/
theorem Keys.isPressed_of_not_lt (h : ¬code.toNat < 16) : k.isPressed code = false := dif_neg h

end

/-- R183: a skip where the test fails. -/
theorem State.skipIf_not_eq_ite {s : State} {c : Bool} {p : Prop} [Decidable p] (h : c = true ↔ p) :
    s.skipIf (!c) = { s with pc := if p then s.pc else s.pc + 2 } := by
  have hnot : (!c) = true ↔ ¬p := by rw [Bool.not_eq_true', ← Bool.not_eq_true, h]
  rw [State.skipIf_eq_ite hnot, ite_not]

/-! ### The statements -/

/-- Settles O37: the points are taken from the registers on entry, and only then does VF take the collision. -/
theorem drawXorsSprite : Obligations.DrawXorsSprite := by
  intro x y n s
  refine ⟨decodeOpcode_encode (i := .drw x y n) rfl, _, rfl, rfl, fun X Y hX hY => ⟨?covered, ?uncovered⟩,
    fun r hr => ?otherRegisters, fun hset => ?collided, fun hclear => ?notCollided⟩
  case covered => exact Grid.cell_plot_covered s.grid
  case uncovered => exact Grid.cell_plot_uncovered s.grid hX hY
  case otherRegisters => exact State.reg_setReg_other _ hr _
  case collided =>
    rw [State.reg_vf_setReg, (Grid.plot_collided_iff s.grid).mpr hset]
    rfl
  case notCollided =>
    rw [State.reg_vf_setReg, Bool.eq_false_iff.mpr fun h => hclear ((Grid.plot_collided_iff s.grid).mp h)]
    rfl

/-- Settles O39: a code below 16 is tested on its own key, and any other is answered as not pressed. -/
theorem skipsOnKey : Obligations.SkipsOnKey := by
  intro x s
  refine ⟨decodeOpcode_encode (i := .skp x) rfl, decodeOpcode_encode (i := .sknp x) rfl, fun h => ?key, fun h => ?noKey⟩
  case key =>
    have hpressed : s.keys.isPressed (s.reg x) = true ↔ s.keys[(s.reg x).toNat] = true := by
      rw [Keys.isPressed_of_lt h]
    exact ⟨congrArg Host.Outcome.next (State.skipIf_eq_ite hpressed),
      congrArg Host.Outcome.next (State.skipIf_not_eq_ite hpressed)⟩
  case noKey =>
    have hreleased : s.keys.isPressed (s.reg x) = true ↔ False :=
      iff_false_intro (Bool.eq_false_iff.mp (Keys.isPressed_of_not_lt h))
    exact ⟨congrArg Host.Outcome.next (State.skipIf_eq_ite hreleased),
      congrArg Host.Outcome.next (State.skipIf_not_eq_ite hreleased)⟩

end Sys2Proof.Machine
end

section
/-! O40 to O45: family 0xF (spec 44_fgroup). The two block stores are a run of bytes written from I on, which changes
memory alone; the other six write registers, I, a timer or the wait. -/

namespace Sys2Proof.Machine

/-! ### The decimal digits (R207) -/

/-- Each digit of a byte fits in the byte it is stored in. -/
theorem decimalDigits_map_toNat (b : Byte) :
    (decimalDigits b).map BitVec.toNat = [b.toNat / 100, b.toNat / 10 % 10, b.toNat % 10] := by
  have := b.isLt
  simp only [decimalDigits, List.map_cons, List.map_nil, BitVec.toNat_ofNat, List.cons.injEq, and_true]
  omega

/-- `Fx33` leaves digit k of V[x] at I + k. -/
theorem State.memRead_storedDigit (s : State) (b : Byte) {k : Nat} (hk : k < 3) :
    ((s.writeBytes (s.indexAddr 0) (decimalDigits b)).memRead (s.indexAddr k)).toNat =
      [b.toNat / 100, b.toNat / 10 % 10, b.toNat % 10][k] := by
  have hlt : k < (decimalDigits b).length := hk
  have hfits : (decimalDigits b).length ≤ Config.memSize := (by decide : 3 ≤ Config.memSize)
  rw [s.memRead_storedFromI _ hfits k hlt]
  simp only [← decimalDigits_map_toNat, List.getElem_map]

/-! ### The statements -/

/-- Settles O43: the run of bytes that `Fx33` stores is the three digits. -/
theorem decimalDigitsAreStored : Obligations.DecimalDigitsAreStored := fun x s =>
  ⟨decodeOpcode_encode (i := .ldBVx x) rfl, _, rfl, s.writeBytes_eq _ _, s.memRead_storedDigit _ (k := 0) (by decide),
    s.memRead_storedDigit _ (k := 1) (by decide), s.memRead_storedDigit _ (k := 2) (by decide),
    fun a ha => s.memRead_writeBytes_other _ _ a ha⟩

/-- Settles O44: the run of bytes that `Fx55` stores is V0 to Vx. -/
theorem registersAreStored : Obligations.RegistersAreStored := by
  intro x s
  refine ⟨decodeOpcode_encode (i := .storeRegs x) rfl, _, rfl, s.writeBytes_eq _ _,
    fun r hr => s.memRead_storedReg hr rfl, fun a ha => ?otherBytes⟩
  case otherBytes =>
    refine s.memRead_writeBytes_other _ _ a fun k hk => ha k ?_
    rw [s.regsThrough_length] at hk
    exact Nat.le_of_lt_succ hk

/-- Settles O40: `Fx07` writes one register, and the other two update one timer each. -/
theorem timerTransfers : Obligations.TimerTransfers := fun x _ =>
  ⟨⟨decodeOpcode_encode (i := .ldVxDt x) rfl, exec_writes_one_reg rfl⟩,
    ⟨decodeOpcode_encode (i := .ldDtVx x) rfl, rfl⟩, ⟨decodeOpcode_encode (i := .ldStVx x) rfl, rfl⟩⟩

/-- Settles O41: entering the wait reads no key and sets the pause and the target alone. -/
theorem keyWaitBegins : Obligations.KeyWaitBegins := fun x _ => ⟨decodeOpcode_encode (i := .ldVxKey x) rfl, rfl⟩

/-- Settles O42: the sum is stored in the 16 bits of I, which wraps it. -/
theorem addToIndex : Obligations.AddToIndex := fun x s =>
  ⟨decodeOpcode_encode (i := .addIVx x) rfl, s.setI (s.i.toNat + (s.reg x).toNat), rfl, rfl, BitVec.toNat_ofNat _ 16⟩

/-- Settles O45: the read reduces its address, so I + r mod 4096 names the same byte as I + r (R51). -/
theorem registersAreLoaded : Obligations.RegistersAreLoaded := by
  intro x s
  refine ⟨decodeOpcode_encode (i := .loadRegs x) rfl, _, rfl, rfl, fun r => ?_⟩
  rw [State.reg_loadedRegs, s.memRead_congr (wrapAddr_mod (s.i.toNat + r.toNat))]
  rfl

end Sys2Proof.Machine
end

section
/-! O9 to O12: fatal errors (spec 60_exceptions). The case lemma of the instructions that raise names the instruction, so
that the record made by a step is about the opcode it fetched. -/

namespace Sys2Proof.Machine

section
variable {s t : State}

/-! ### The halted machine (R233) -/

theorem tick_halted (h : s.fault ≠ none) : tick s = .next s := by
  simp [tick, s.halted_iff.mpr h]

theorem step_halted (hinputs : s.inputs = []) (h : s.fault ≠ none) : step s = .next s :=
  (step_undisturbed hinputs).trans (runStep_halted h)

/-- An outside event leaves the fatal-error record, or is a reset and clears it (R234). -/
theorem deliver_fault_cases {e : HostEvent} (h : deliver e s = .next t) :
    t.fault = s.fault ∨ (t.fault = none ∧ e = .reset) := by
  obtain ⟨rfl, -, rfl⟩ | ⟨-, -, rfl⟩ | ⟨bytes, -, -, -, rfl⟩ | ⟨code, -, -, -, rfl⟩ | ⟨code, -, -, -, rfl⟩ |
    ⟨code, -, -, rfl⟩ := deliver_cases h
  · exact .inr ⟨rfl, rfl⟩
  · exact .inl (s.writeBytes_fault _ _)
  · exact .inl (s.writeBytes_fault _ _)
  all_goals exact .inl rfl

/-! ### The instructions that raise (R230) -/

/-- R230: what an instruction does to the fatal-error record: the two that can raise name themselves in it. -/
theorem exec_raise_cases {i : Instr} (h : exec i s = .next t) :
    t.fault = s.fault ∨
    (i = .ret ∧ s.stack = [] ∧ t = s.raise .stackUnderflow (encode i)) ∨
    ((∃ nnn, i = .call nnn) ∧ s.params.stackCap = some s.stack.length ∧ t = s.raise .stackOverflow (encode i)) := by
  cases i
  case ret =>
    obtain ⟨hstack, rfl⟩ | ⟨a, rest, -, rfl⟩ := execRet_cases h
    · exact .inr (.inl ⟨rfl, hstack, rfl⟩)
    · exact .inl rfl
  case call nnn =>
    obtain ⟨hfull, rfl⟩ | ⟨-, rfl⟩ := execCall_cases h
    · exact .inr (.inr ⟨⟨nnn, rfl⟩, s.stackFull_iff.mp hfull, rfl⟩)
    · exact .inl rfl
  all_goals obtain rfl := Host.Outcome.next.inj h
  case seImm | sneImm | seReg | sneReg | skp | sknp => exact .inl (s.skipIf_fault _)
  case ldBVx | storeRegs => exact .inl (s.writeBytes_fault _ _)
  all_goals exact .inl rfl

/-- R231, R232: a step that records a fatal error takes the address and the opcode that it fetched, and beside the record
keeps only the advance of pc: an instruction that raises is the one its opcode encodes (O2). -/
theorem executorStep_raise_eq (hf : s.fault = none) (h : executorStep s = .next t) (ht : t.fault ≠ none) :
    ∃ k, t = s.advance.raise k s.fetchOpcode := by
  obtain ⟨-, rfl⟩ | ⟨-, -, ⟨i, hi, hexec⟩ | ⟨-, rfl⟩⟩ := executorStep_cases h
  · exact absurd hf ht
  · obtain ⟨henc, -⟩ := encodeDecodeRoundTrip _ i hi
    obtain hsame | ⟨-, -, rfl⟩ | ⟨-, -, rfl⟩ := exec_raise_cases hexec
    · exact absurd (hsame.trans hf) ht
    · exact ⟨_, by rw [henc]⟩
    · exact ⟨_, by rw [henc]⟩
  · exact ⟨_, rfl⟩

/-! ### The Scheduler's part after a step, by cases (R233, R245) -/

theorem State.afterStep_of_fault (h : s.fault ≠ none) : s.afterStep = { s with stepsLeft := s.params.ipt } := by
  simp [State.afterStep, s.halted_iff.mpr h]

theorem State.afterStep_of_last (hf : s.fault = none) (h : s.stepsLeft ≤ 1) :
    s.afterStep = { s.finishTick with stepsLeft := s.params.ipt } := by
  simp [State.afterStep, State.halted, hf, h]

theorem State.afterStep_of_more (hf : s.fault = none) (h : 1 < s.stepsLeft) :
    s.afterStep = { s with stepsLeft := s.stepsLeft - 1 } := by
  simp [State.afterStep, State.halted, hf, Nat.not_le.mpr h]

/-- R245: an undisturbed move with a step left is the Executor's step and the Scheduler's part after it. -/
theorem step_eq_afterStep (hinputs : s.inputs = []) (hf : s.fault = none) (hsteps : 0 < s.stepsLeft)
    (h : executorStep s = .next t) : step s = .next t.afterStep := by
  rw [step_undisturbed hinputs, runStep_running hf hsteps, h, Result.andThen_next]

end

/-! ### The statements -/

/-- Settles O9: the Executor's step, the tick and the move each look for a fatal error first. -/
theorem haltedDoesNothing : Obligations.HaltedDoesNothing := fun _ h =>
  ⟨executorStep_halted h, tick_halted h, fun hinputs => step_halted hinputs h⟩

/-- Settles O10: the block by itself does nothing when halted, and of the outside events only a reset writes the record. -/
theorem onlyResetLeavesHalt : Obligations.OnlyResetLeavesHalt := by
  intro s t hf h
  obtain ⟨rest, ⟨hrun, -⟩ | ⟨e, hinputs, he⟩⟩ := step_cases h
  · rw [runStep_halted (s := { s with inputs := rest }) hf] at hrun
    obtain rfl := Host.Outcome.next.inj hrun
    exact .inl rfl
  · obtain hsame | ⟨hclear, rfl⟩ := deliver_fault_cases he
    · exact .inl hsame
    · exact .inr ⟨hclear, rest, hinputs⟩

/-- Settles O11: the step raises on the advanced state, and the Scheduler then only sets its place to the next tick. -/
theorem fatalErrorIsPreciseAndEndsTick : Obligations.FatalErrorIsPreciseAndEndsTick := by
  rintro s t ⟨hinputs, hf, -, hsteps⟩ h ht
  constructor
  · obtain ⟨k, rfl⟩ := executorStep_raise_eq hf h ht
    exact ⟨k, s.advance_raise_eq k _⟩
  · rw [step_eq_afterStep hinputs hf hsteps h, State.afterStep_of_fault ht, executorStep_params h]

/-- Settles O12: where no record stood before, one that stands after is RET's or CALL's. -/
theorem instructionsThatRaise : Obligations.InstructionsThatRaise := by
  intro i s t hf h f ht
  obtain hsame | ⟨hi, hstack, rfl⟩ | ⟨hi, hcap, rfl⟩ := exec_raise_cases h
  · simp [hsame, hf] at ht
  · obtain rfl := Option.some.inj ht
    exact .inl ⟨hi, hstack, rfl⟩
  · obtain rfl := Option.some.inj ht
    exact .inr ⟨hi, hcap, rfl⟩

end Sys2Proof.Machine
end

section
/-! O50 to O53: the Scheduler's tick taken one step at a time (R245), and the wait through it (R242). An instruction
does not read the Scheduler's place, so a run of moves that counts it down is the quota of R245, which does not. -/

namespace Sys2Proof.Machine

/-! ### The Scheduler's place is not read -/

/-- The state at another place in its tick. -/
def State.withStepsLeft (s : State) (n : Nat) : State :=
  { s with stepsLeft := n }

theorem State.withStepsLeft_self {s : State} {n : Nat} (h : s.stepsLeft = n) : s.withStepsLeft n = s := by
  subst h
  rfl

theorem State.skipIf_withStepsLeft (s : State) (n : Nat) (c : Bool) :
    (s.withStepsLeft n).skipIf c = (s.skipIf c).withStepsLeft n := by
  cases c <;> rfl

theorem State.writeBytes_withStepsLeft (s : State) (n base : Nat) (bytes : List Byte) :
    (s.withStepsLeft n).writeBytes base bytes = (s.writeBytes base bytes).withStepsLeft n := by
  induction bytes generalizing s base with
  | nil => rfl
  | cons b rest ih => exact ih (s.memWrite base b) (base + 1)

theorem State.finishTick_withStepsLeft (s : State) (n : Nat) :
    (s.withStepsLeft n).finishTick = s.finishTick.withStepsLeft n := by
  simp only [State.finishTick_eq, State.decrementTimers]
  cases hp : s.paused <;> simp [State.withStepsLeft, hp]

section
variable {s t : State}

/-- No instruction reads or writes the Scheduler's place. -/
theorem exec_withStepsLeft {i : Instr} (n : Nat) (h : exec i s = .next t) :
    exec i (s.withStepsLeft n) = .next (t.withStepsLeft n) := by
  cases i
  case ret =>
    obtain ⟨hs, rfl⟩ | ⟨a, rest, hs, rfl⟩ := execRet_cases h
    · exact execRet_empty hs
    · exact execRet_pop hs
  case call nnn =>
    obtain ⟨hs, rfl⟩ | ⟨hs, rfl⟩ := execCall_cases h
    · exact execCall_full nnn hs
    · exact execCall_room nnn hs
  all_goals obtain rfl := Host.Outcome.next.inj h
  case seImm | sneImm | seReg | sneReg | skp | sknp => exact congrArg _ (s.skipIf_withStepsLeft n _)
  case ldBVx | storeRegs => exact congrArg _ (s.writeBytes_withStepsLeft n _ _)
  all_goals rfl

theorem executorStep_withStepsLeft (n : Nat) (h : executorStep s = .next t) :
    executorStep (s.withStepsLeft n) = .next (t.withStepsLeft n) := by
  obtain ⟨hf | hp, rfl⟩ | ⟨hf, hp, ⟨i, hi, hexec⟩ | ⟨he, rfl⟩⟩ := executorStep_cases h
  · exact executorStep_halted hf
  · exact executorStep_of_paused hp
  · exact (executorStep_running (s := s.withStepsLeft n) hf hp).trans
      ((executeOpcode_of_ok hi _).trans (exec_withStepsLeft (s := s.advance) n hexec))
  · exact (executorStep_running (s := s.withStepsLeft n) hf hp).trans (executeOpcode_of_error he _)

theorem exec_inputs {i : Instr} (h : exec i s = .next t) : t.inputs = s.inputs := by
  obtain ⟨-, -, -, -, -, -, -, -, -, -, hinputs, -⟩ := controlStateWriters i s t h
  exact hinputs

theorem executorStep_inputs (h : executorStep s = .next t) : t.inputs = s.inputs := by
  obtain ⟨-, rfl⟩ | ⟨-, -, ⟨i, -, hi⟩ | ⟨-, rfl⟩⟩ := executorStep_cases h
  · rfl
  · exact (exec_inputs hi).trans s.advance_inputs
  · rfl

/-! ### The quota (R245) -/

/-- R245: a step that ends in a fatal error is the last of its quota. -/
theorem runQuota_succ_of_fault {k : Nat} (h : executorStep s = .next t) (ht : t.fault ≠ none) :
    runQuota (k + 1) s = .next t := by
  rw [runQuota, h, Result.andThen_next, if_pos (t.halted_iff.mpr ht)]

/-- R245: after any other step the quota goes on with one step fewer to run. -/
theorem runQuota_succ (k : Nat) (h : executorStep s = .next t) (ht : t.fault = none) :
    runQuota (k + 1) s = runQuota k t := by
  rw [runQuota, h, Result.andThen_next, if_neg (by simp [t.halted_iff, ht])]

theorem runQuota_one (h : executorStep s = .next t) : runQuota 1 s = .next t := by
  rw [runQuota, h, Result.andThen_next, runQuota, ite_self]

/-- The quota answers a next state, and no step of it touches the Scheduler's place. -/
theorem runQuota_answers_next (k : Nat) (s : State) : ∃ t, runQuota k s = .next t ∧ t.stepsLeft = s.stepsLeft := by
  induction k generalizing s with
  | zero => exact ⟨s, rfl, rfl⟩
  | succ k ih =>
    obtain ⟨t, ht⟩ := executorStep_answers_next s
    have hsteps := executorStep_stepsLeft ht
    by_cases hf : t.fault = none
    · obtain ⟨u, hu, husteps⟩ := ih t
      exact ⟨u, (runQuota_succ k ht hf).trans hu, husteps.trans hsteps⟩
    · exact ⟨t, runQuota_succ_of_fault ht hf, hsteps⟩

/-! ### The end of the tick (R233, R245 to R248) -/

/-- R246: both timers go down by one, never below 0, unless the machine waits. -/
theorem State.decrementTimers_toNat (s : State) :
    s.decrementTimers.dt.toNat = (if s.paused = true then s.dt.toNat else s.dt.toNat - 1) ∧
    s.decrementTimers.st.toNat = (if s.paused = true then s.st.toNat else s.st.toNat - 1) := by
  unfold State.decrementTimers
  split
  · exact ⟨rfl, rfl⟩
  · exact ⟨timerTick_toNat s.dt, timerTick_toNat s.st⟩

/-- What a tick does after its quota: nothing where a fatal error has ended it (R233). -/
def State.endTick (s : State) : State :=
  if s.halted then s else s.finishTick

theorem State.endTick_of_fault (h : s.fault ≠ none) : s.endTick = s := if_pos (s.halted_iff.mpr h)

theorem State.endTick_of_running (h : s.fault = none) : s.endTick = s.finishTick := by
  simp [State.endTick, State.halted, h]

theorem tick_eq_endTick (hf : s.fault = none) (h : runQuota s.params.ipt s = .next t) : tick s = .next t.endTick := by
  rw [tick, if_neg (by simp [s.halted_iff, hf]), h, Result.andThen_next, State.endTick, apply_ite Host.Outcome.next]

theorem State.endTick_stepsLeft (s : State) : s.endTick.stepsLeft = s.stepsLeft := by
  by_cases hf : s.fault = none
  · rw [State.endTick_of_running hf, State.finishTick_stepsLeft]
  · rw [State.endTick_of_fault hf]

/-! ### A tick's worth of moves -/

theorem core_run_halted (k : Nat) (hinputs : s.inputs = []) (h : s.fault ≠ none) :
    Host.Core.run Sys2Proof.core k s = .next s := by
  induction k with
  | zero => rfl
  | succ k ih => exact (core_run_succ (step_halted hinputs h) k).trans ih

/-- A move with n steps of the tick left is the Executor's step, whatever n is, and the Scheduler's part after it. -/
theorem step_withStepsLeft {n : Nat} (hn : 0 < n) (hinputs : s.inputs = []) (hf : s.fault = none)
    (h : executorStep s = .next t) : step (s.withStepsLeft n) = .next (t.withStepsLeft n).afterStep :=
  step_eq_afterStep (s := s.withStepsLeft n) hinputs hf hn (executorStep_withStepsLeft n h)

/-- The last step of a tick is followed by the end of the tick, and the next tick begins (D15). -/
theorem State.afterStep_one (s : State) : (s.withStepsLeft 1).afterStep = s.endTick.withStepsLeft s.params.ipt := by
  by_cases hf : s.fault = none
  · rw [State.afterStep_of_last (s := s.withStepsLeft 1) hf le_rfl, State.finishTick_withStepsLeft,
      State.endTick_of_running hf]
    rfl
  · rw [State.afterStep_of_fault (s := s.withStepsLeft 1) hf, State.endTick_of_fault hf]
    rfl

/-- R245: with k + 1 steps left, k + 1 moves run a quota of k + 1 steps and the end of the tick. -/
theorem core_run_eq_endTick (k : Nat) (hinputs : s.inputs = []) (hf : s.fault = none)
    (h : runQuota (k + 1) s = .next t) :
    Host.Core.run Sys2Proof.core (k + 1) (s.withStepsLeft (k + 1)) = .next (t.endTick.withStepsLeft s.params.ipt) := by
  induction k generalizing s with
  | zero =>
    obtain ⟨u, hu⟩ := executorStep_answers_next s
    obtain rfl : u = t := Host.Outcome.next.inj ((runQuota_one hu).symm.trans h)
    rw [← executorStep_params hu]
    exact (core_run_succ (step_withStepsLeft Nat.one_pos hinputs hf hu) 0).trans (congrArg _ u.afterStep_one)
  | succ k ih =>
    obtain ⟨u, hu⟩ := executorStep_answers_next s
    have huinputs := (executorStep_inputs hu).trans hinputs
    rw [core_run_succ (step_withStepsLeft (Nat.succ_pos _) hinputs hf hu), ← executorStep_params hu]
    by_cases huf : u.fault = none
    · rw [State.afterStep_of_more (s := u.withStepsLeft (k + 2)) huf (Nat.one_lt_succ_succ k)]
      exact ih (s := u) huinputs huf ((runQuota_succ (k + 1) hu huf).symm.trans h)
    · obtain rfl : u = t := Host.Outcome.next.inj ((runQuota_succ_of_fault hu huf).symm.trans h)
      rw [State.afterStep_of_fault (s := u.withStepsLeft (k + 2)) huf, State.endTick_of_fault huf]
      exact core_run_halted (s := u.withStepsLeft u.params.ipt) (k + 1) huinputs huf

/-! ### The wait (R242, R246) -/

/-- R246, C5: while the machine waits, the end of a tick lowers no timer. -/
theorem State.finishTick_of_paused (hp : s.paused = true) :
    s.finishTick = { s with outputs := .present :: toneCall s.st :: s.outputs } := by
  simp [State.finishTick, State.decrementTimers, hp, State.emit]

/-- R242: in the wait the Executor rests, and the Scheduler counts the step and ends the tick as always. -/
theorem step_waiting (hinputs : s.inputs = []) (hf : s.fault = none) (hp : s.paused = true) :
    ∃ n o, step s = .next { s with stepsLeft := n, outputs := o } := by
  obtain h0 | hpos := Nat.eq_zero_or_pos s.stepsLeft
  · rw [step_undisturbed hinputs, runStep_no_steps hf h0, State.finishTick_of_paused hp]
    exact ⟨_, _, rfl⟩
  · rw [step_eq_afterStep hinputs hf hpos (executorStep_paused hf hp)]
    obtain e | e | ⟨-, e⟩ := s.afterStep_cases
    · exact ⟨_, _, congrArg _ e⟩
    · exact ⟨_, _, congrArg _ (State.finishTick_of_paused hp ▸ e)⟩
    · exact ⟨_, _, congrArg _ e⟩

end

/-! ### The statements -/

/-- Settles O51: halted, the moves and the tick do nothing; with IPT = 0 the one move is the end of the tick; else the
moves run the quota and the end of the tick, which leaves the Scheduler's place where the tick began. -/
theorem stepsMakeUpTheTick : Obligations.StepsMakeUpTheTick := by
  intro s hinputs hsteps
  by_cases hf : s.fault = none
  · cases hipt : s.params.ipt with
    | zero =>
      have hstep := (step_undisturbed hinputs).trans (runStep_no_steps hf (hsteps.trans hipt))
      have htick : tick s = .next s.endTick := tick_eq_endTick hf (by rw [hipt, runQuota])
      rw [htick, State.endTick_of_running hf]
      refine (core_run_succ hstep 0).trans (congrArg Host.Outcome.next ?_)
      exact State.withStepsLeft_self (s.finishTick_stepsLeft.trans hsteps)
    | succ k =>
      obtain ⟨t, ht, hplace⟩ := runQuota_answers_next (k + 1) s
      have htick : tick s = .next t.endTick := tick_eq_endTick hf (hipt ▸ ht)
      have hrun := core_run_eq_endTick k hinputs hf ht
      rw [State.withStepsLeft_self (hsteps.trans hipt),
        State.withStepsLeft_self (t.endTick_stepsLeft.trans (hplace.trans hsteps))] at hrun
      rw [htick, Nat.max_eq_right (Nat.succ_pos k)]
      exact hrun
  · exact (core_run_halted _ hinputs hf).trans (tick_halted hf).symm

/-- Settles O53: the Scheduler's place is the one the step began at, so it decides which part follows. -/
theorem lastStepEndsTick : Obligations.LastStepEndsTick := by
  rintro s t ⟨hinputs, hf, -, hpos⟩ h ht
  have hplace := executorStep_stepsLeft h
  have hstep := step_eq_afterStep hinputs hf hpos h
  constructor
  · intro hlast
    rw [hstep, State.afterStep_of_last ht (hplace.trans hlast).le, executorStep_params h]
  · intro hmore
    rw [hstep, State.afterStep_of_more ht (hplace.symm ▸ hmore), hplace]

/-- Settles O50, by induction on the number of steps: each leaves the machine waiting with no event to come. -/
theorem waitHoldsUntilKeyPress : Obligations.WaitHoldsUntilKeyPress := by
  intro k s hinputs hf hp
  induction k generalizing s with
  | zero => exact ⟨s, rfl, rfl⟩
  | succ k ih =>
    obtain ⟨n, o, hstep⟩ := step_waiting hinputs hf hp
    rw [core_run_succ hstep]
    exact ih _ hinputs hf hp

/-- Settles O52: after a quota without a fatal error the tick ends by `finishTick`. -/
theorem endOfTick : Obligations.EndOfTick := by
  intro s t hf h ht
  obtain ⟨hdt, hst⟩ := t.decrementTimers_toNat
  have htick := tick_eq_endTick hf h
  rw [State.endTick_of_running ht, t.finishTick_eq] at htick
  exact ⟨_, htick, rfl, hdt, hst, rfl⟩

end Sys2Proof.Machine
end

section
/-! O36, O48 and O49: the ports (R254, R257, R258) and the outside events that are refused (D20, D26). -/

namespace Sys2Proof.Machine

section
variable {s : State}

/-! ### The pixel surface (R254) -/

/-- R180: a byte and a column are at most 255 + 7, a byte and a row at most 255 + 14. -/
theorem State.spritePoints_bound {x y n : Nibble} {p : Nat × Nat} (h : p ∈ s.spritePoints x y n) :
    p.1 ≤ 262 ∧ p.2 ≤ 269 := by
  obtain ⟨r, c, hr, hc, -, rfl⟩ := (s.mem_spritePoints x y n p).mp h
  have hx := (s.reg x).isLt
  have hy := (s.reg y).isLt
  have hn := n.isLt
  exact ⟨by simp only; omega, by simp only; omega⟩

/-! ### The key events (R241, R258) -/

theorem State.handOff_reg (s : State) (b : Byte) (r : Nibble) :
    (s.handOff b).reg r = if r = s.waitReg then b else s.reg r :=
  s.reg_setReg s.waitReg r b

theorem keyPress_waiting {code : Byte} (hcode : code.toNat < 16) (hp : s.paused = true) :
    keyPress code s = .next (({ s with keys := s.keys.setKey code true } : State).handOff code) := by
  simp [keyPress, hcode, hp]

theorem keyPress_running {code : Byte} (hcode : code.toNat < 16) (hp : s.paused = false) :
    keyPress code s = .next { s with keys := s.keys.setKey code true } := by
  simp [keyPress, hcode, hp]

theorem keyRelease_eq {code : Byte} (hcode : code.toNat < 16) :
    keyRelease code s = .next { s with keys := s.keys.setKey code false } := if_pos hcode

/-! ### The refusals (D20, D26, R265, R280) -/

theorem keyPress_refused {code : Byte} (h : ¬code.toNat < 16) : keyPress code s = .refused (.invalidKeyCode code) :=
  if_neg h

theorem keyRelease_refused {code : Byte} (h : ¬code.toNat < 16) : keyRelease code s = .refused (.invalidKeyCode code) :=
  if_neg h

theorem loadProgram_refused {bytes : List Byte} (h : Config.maxProgram < bytes.length) :
    loadProgram bytes s = .refused (.programTooLong bytes.length) := if_neg (Nat.not_le.mpr h)

theorem deliver_loadProgram (bytes : List Byte) (h : s.betweenTicks = true) :
    deliver (.loadProgram bytes) s = loadProgram bytes s := if_pos h

/-- R265, R280: the three commands are the host's between ticks only. -/
theorem deliver_command_refused {e : HostEvent} (he : e = .reset ∨ e = .loadFont ∨ ∃ bytes, e = .loadProgram bytes)
    (h : s.betweenTicks = false) : deliver e s = .refused .commandInsideTick := by
  obtain rfl | rfl | ⟨bytes, rfl⟩ := he
  all_goals exact if_neg (Bool.eq_false_iff.mp h)

end

/-! ### The statements -/

/-- Settles O36: the toggle turns one cell over, and the answer is read from the toggled grid. -/
theorem setPixelToggles : Obligations.SetPixelToggles := by
  refine ⟨fun g x y X Y hX hY => ⟨?cells, rfl⟩, fun s x y n p => State.spritePoints_bound⟩
  case cells =>
    have htoggle := g.cell_toggle x y X Y
    rwa [Nat.mod_eq_of_lt hX, Nat.mod_eq_of_lt hY] at htoggle

/-- Settles O48: both events set one key's bit; the press writes the waiting register only in the wait. -/
theorem keyEventsAndHandOff : Obligations.KeyEventsAndHandOff := by
  intro s c rest hc
  refine ⟨fun h => ?press, fun h => ?release⟩
  case press =>
    have hkeys := fun c' => s.keys.isPressed_setKey c c' true hc
    cases hp : s.paused with
    | true =>
      refine ⟨_, (step_event h).trans (keyPress_waiting hc hp), rfl, hkeys, fun r => ?_⟩
      simp only [true_and]
      exact State.handOff_reg _ c r
    | false =>
      refine ⟨_, (step_event h).trans (keyPress_running hc hp), ?_, hkeys, fun r => ?_⟩
      · rw [hp]
      · rw [if_neg (fun hwait => Bool.noConfusion hwait.left)]
        rfl
  case release =>
    exact ⟨_, (step_event h).trans (keyRelease_eq hc), rfl, fun c' => s.keys.isPressed_setKey c c' false hc⟩

/-- Settles O49: the key events look at their code, the commands at the Scheduler's place, and the load then at its
length. -/
theorem meaninglessEventsAreRefused : Obligations.MeaninglessEventsAreRefused := by
  intro s rest
  have hplace : ({ s with inputs := rest } : State).betweenTicks = s.betweenTicks := rfl
  refine ⟨fun c hc => ⟨fun h => ?press, fun h => ?release⟩, fun bytes h hbetween hlen => ?longImage,
    fun hinside => ⟨fun h => ?reset, fun h => ?loadFont, fun bytes h => ?loadProgram⟩⟩
  case press => exact (step_event h).trans (keyPress_refused hc)
  case release => exact (step_event h).trans (keyRelease_refused hc)
  case longImage =>
    exact (step_event h).trans
      ((deliver_loadProgram bytes (hplace.trans hbetween)).trans (loadProgram_refused hlen))
  case reset => exact (step_event h).trans (deliver_command_refused (.inl rfl) (hplace.trans hinside))
  case loadFont => exact (step_event h).trans (deliver_command_refused (.inr (.inl rfl)) (hplace.trans hinside))
  case loadProgram =>
    exact (step_event h).trans (deliver_command_refused (.inr (.inr ⟨bytes, rfl⟩)) (hplace.trans hinside))

end Sys2Proof.Machine
end

section
/-! O56 to O60: reset, the two loads and the launch state (R280 to R285). Each load is a run of bytes written to memory,
which neither reads nor changes what the reset leaves: the events still to come, the outputs and the draws. -/

namespace Sys2Proof.Machine

section
variable {s : State}

/-! ### The host's commands between ticks (R265, R280) -/

theorem State.betweenTicks_iff : s.betweenTicks = true ↔ s.fault ≠ none ∨ s.stepsLeft = s.params.ipt := by
  rw [State.betweenTicks, Bool.or_eq_true, State.halted_iff, beq_iff_eq]

theorem step_reset {rest : List Input} (h : s.inputs = .event .reset :: rest) (hbetween : s.betweenTicks = true) :
    step s = .next ({ s with inputs := rest } : State).resetBlock :=
  (step_event h).trans (if_pos hbetween)

theorem step_loadFont {rest : List Input} (h : s.inputs = .event .loadFont :: rest) (hbetween : s.betweenTicks = true) :
    step s = .next ({ s with inputs := rest } : State).loadFont :=
  (step_event h).trans (if_pos hbetween)

theorem step_loadProgram {bytes : List Byte} {rest : List Input} (h : s.inputs = .event (.loadProgram bytes) :: rest)
    (hbetween : s.betweenTicks = true) (hlen : bytes.length ≤ Config.maxProgram) :
    step s = .next (({ s with inputs := rest } : State).writeBytes Config.programBase bytes) :=
  (step_event h).trans ((deliver_loadProgram (s := { s with inputs := rest }) bytes hbetween).trans (if_pos hlen))

/-- A load leaves the Scheduler's place, so the next command is between ticks as well. -/
theorem State.betweenTicks_loadFont (s : State) : s.loadFont.betweenTicks = s.betweenTicks := by
  rw [State.loadFont_eq]
  rfl

/-! ### The image in memory (R284) -/

/-- Byte k of an image that fits is at 0x200 + k once the program is loaded. -/
theorem State.memRead_loadedImage (s : State) {bytes : List Byte} (hlen : bytes.length ≤ Config.maxProgram) {k : Nat}
    (hk : k < bytes.length) : (s.writeBytes Config.programBase bytes).memRead (0x200 + k) = bytes[k] :=
  s.memRead_writeBytes_at _ bytes (hlen.trans (by decide)) k hk _ rfl

/-- An image that fits ends within memory, so its addresses do not wrap and loading it leaves all other bytes. -/
theorem State.memRead_besideImage (s : State) {bytes : List Byte} (hlen : bytes.length ≤ Config.maxProgram) {a : Nat}
    (ha : wrapAddr a < 0x200 ∨ 0x200 + bytes.length ≤ wrapAddr a) :
    (s.writeBytes Config.programBase bytes).memRead a = s.memRead a := by
  refine s.memRead_writeBytes_other _ bytes a fun k hk => ?_
  have hin : wrapAddr (Config.programBase + k) = 0x200 + k := by
    refine Nat.mod_eq_of_lt ?_
    simp only [Config.maxProgram, Config.programBase, Config.memSize] at hlen ⊢
    omega
  omega

/-- A glyph's row lies below 0x050, hence below the image. -/
theorem wrapAddr_glyphRow_lt {d r : Nat} (hd : d < 16) (hr : r < 5) : wrapAddr (5 * d + r) < 0x200 :=
  (Nat.mod_le _ _).trans_lt (by omega)

/-! ### The loads and the records -/

/-- The state with other outside events to come, outputs made and bytes drawn: the records that reset leaves. -/
def State.withRecords (s : State) (inputs : List Input) (outputs : List Output) (draws : Nat) : State :=
  { s with inputs := inputs, outputs := outputs, draws := draws }

theorem State.withRecords_inputs {outputs : List Output} {draws : Nat} (inputs : List Input)
    (houtputs : s.outputs = outputs) (hdraws : s.draws = draws) :
    s.withRecords inputs outputs draws = { s with inputs := inputs } := by
  subst houtputs hdraws
  rfl

theorem State.writeBytes_withRecords (s : State) (inputs : List Input) (outputs : List Output) (draws base : Nat)
    (bytes : List Byte) :
    (s.withRecords inputs outputs draws).writeBytes base bytes =
      (s.writeBytes base bytes).withRecords inputs outputs draws := by
  induction bytes generalizing s base with
  | nil => rfl
  | cons b rest ih => exact ih (s.memWrite base b) (base + 1)

theorem State.loadFont_withRecords (s : State) (inputs : List Input) (outputs : List Output) (draws : Nat) :
    (s.withRecords inputs outputs draws).loadFont = s.loadFont.withRecords inputs outputs draws :=
  s.writeBytes_withRecords inputs outputs draws _ _

/-- R280, R281: reset gives the block the values of R34 and leaves the collaborators and the records. -/
theorem State.resetBlock_eq (s : State) :
    s.resetBlock = (State.afterReset s.params s.grid s.keys).withRecords s.inputs s.outputs s.draws := rfl

/-- R285: the boot events load the font and then the image, whatever the records hold. -/
theorem core_run_bootEvents (hbetween : s.betweenTicks = true) {image : List Byte}
    (hlen : image.length ≤ Config.maxProgram) (rest : List Input) (outputs : List Output) (draws : Nat) :
    Host.Core.run Sys2Proof.core 2 (s.withRecords (bootEvents image ++ rest) outputs draws) =
      .next ((s.loadFont.writeBytes Config.programBase image).withRecords rest outputs draws) := by
  have hfont : step (s.withRecords (bootEvents image ++ rest) outputs draws) =
      .next (s.loadFont.withRecords (.event (.loadProgram image) :: rest) outputs draws) :=
    (step_loadFont (s := s.withRecords _ outputs draws) rfl hbetween).trans
      (congrArg _ (s.loadFont_withRecords _ outputs draws))
  have hprogram : step (s.loadFont.withRecords (.event (.loadProgram image) :: rest) outputs draws) =
      .next ((s.loadFont.writeBytes Config.programBase image).withRecords rest outputs draws) :=
    (step_loadProgram (s := s.loadFont.withRecords _ outputs draws) rfl (s.betweenTicks_loadFont.trans hbetween)
      hlen).trans (congrArg _ (s.loadFont.writeBytes_withRecords rest outputs draws _ _))
  exact (core_run_succ hfont 1).trans (core_run_succ hprogram 0)

theorem State.afterReset_betweenTicks (params : Config.Params) (grid : Grid) (keys : Keys) :
    (State.afterReset params grid keys).betweenTicks = true :=
  State.betweenTicks_iff.mpr (.inr rfl)

/-! ### The launch state (R285) -/

theorem State.launch_memRead_glyph (params : Config.Params) (grid : Grid) (keys : Keys) {image : List Byte}
    (hlen : image.length ≤ Config.maxProgram) (d r : Nat) (hd : d < 16) (hr : r < 5) :
    (State.launch params grid keys image).memRead (5 * d + r) = params.font[d][r] :=
  (State.memRead_besideImage _ hlen (.inl (wrapAddr_glyphRow_lt hd hr))).trans
    (State.memRead_loadFont_glyph _ d r hd hr)

/-- Outside the font and the image the loads leave the 0x00 of reset. -/
theorem State.launch_memRead_elsewhere (params : Config.Params) (grid : Grid) (keys : Keys) {image : List Byte}
    (hlen : image.length ≤ Config.maxProgram) {a : Nat} (hfont : 80 ≤ wrapAddr a)
    (himage : wrapAddr a < 0x200 ∨ 0x200 + image.length ≤ wrapAddr a) :
    (State.launch params grid keys image).memRead a = 0x00 :=
  (State.memRead_besideImage _ hlen himage).trans (State.memRead_loadFont_other _ a hfont)

theorem State.launch_ready (params : Config.Params) (grid : Grid) (keys : Keys) (image : List Byte)
    (hipt : 0 < params.ipt) : (State.launch params grid keys image).Ready := by
  rw [State.launch_eq]
  exact ⟨rfl, rfl, rfl, hipt⟩

theorem State.launch_pc (params : Config.Params) (grid : Grid) (keys : Keys) (image : List Byte) :
    (State.launch params grid keys image).pc = 0x200 :=
  congrArg State.pc (State.launch_eq params grid keys image)

end

/-! ### The statements -/

/-- Settles O57: the font's 80 bytes are the run written from 0x000 on, and memory is all that a load changes. -/
theorem fontLoad : Obligations.FontLoad := by
  intro s rest h hbetween
  let u : State := { s with inputs := rest }
  exact ⟨u.loadFont, step_loadFont h hbetween, u.loadFont_eq, u.memRead_loadFont_glyph, u.memRead_loadFont_other⟩

/-- Settles O58: the image is the run of bytes written from 0x200 on, and it ends within memory. -/
theorem programLoad : Obligations.ProgramLoad := by
  intro s bytes rest h hbetween hlen
  let u : State := { s with inputs := rest }
  exact ⟨u.writeBytes Config.programBase bytes, step_loadProgram h hbetween hlen, u.writeBytes_eq _ bytes,
    fun k hk => u.memRead_loadedImage hlen hk, fun a ha => u.memRead_besideImage hlen ha⟩

/-- Settles O59: the reset leads from any state between ticks to just after reset, where the core's own reset state
stands already, and the boot events lead on from there. -/
theorem bootSequence : Obligations.BootSequence := by
  refine fun bytes rest hlen => ⟨fun s hbetween h => ?fromReset, ?fromCoreReset⟩
  case fromReset =>
    rw [core_run_succ (step_reset h hbetween), State.resetBlock_eq]
    exact core_run_bootEvents (State.afterReset_betweenTicks _ _ _) hlen rest s.outputs s.draws
  case fromCoreReset =>
    refine (core_run_bootEvents (State.afterReset_betweenTicks Config.Params.default _ _) hlen rest [] 0).trans ?_
    have hlaunch := State.launch_eq Config.Params.default Grid.clear Keys.released bytes
    exact congrArg _ (State.withRecords_inputs rest (congrArg State.outputs hlaunch) (congrArg State.draws hlaunch))

/-- Settles O60: the loads change memory alone, and the font and the image are written to separate ranges of the zero
memory of reset. -/
theorem launchStateValues : Obligations.LaunchStateValues := by
  rintro params grid keys bytes hlen _ rfl
  refine ⟨State.launch_eq params grid keys bytes, State.launch_memRead_glyph params grid keys hlen,
    fun k hk => State.memRead_loadedImage _ hlen hk, fun a => State.launch_memRead_elsewhere params grid keys hlen,
    State.launch_ready params grid keys bytes, ?firstFetch⟩
  case firstFetch =>
    rw [State.fetchOpcode, State.launch_pc]
    rfl

/-- Settles O56: a state between ticks takes the reset (R280), which leaves the collaborators and the records. -/
theorem resetCommand : Obligations.ResetCommand := fun _ _ h hplace =>
  step_reset h (State.betweenTicks_iff.mpr hplace)

end Sys2Proof.Machine
end

section
/-! O38: two draws of one sprite (R180). The first draw leaves the sprite's points as they were, so the second plots the
same points again, which undoes the first plot. -/

namespace Sys2Proof.Machine

section
variable {s : State} {x y n : Nibble}

/-- The state after a draw whose plot gave this grid and this collision. -/
def State.withPlotted (s : State) (plotted : Grid × Bool) : State :=
  { s with grid := plotted.1 }.setReg vf (collisionFlag plotted.2)

theorem exec_drw : exec (.drw x y n) s = .next (s.withPlotted (s.grid.plot (s.spritePoints x y n))) := rfl

theorem State.reg_vf_withPlotted (s : State) (plotted : Grid × Bool) :
    (s.withPlotted plotted).reg vf = collisionFlag plotted.2 :=
  State.reg_vf_setReg _ _

/-- A draw leaves its own sprite where it was, unless VF, which takes the flag, is an origin register. -/
theorem State.spritePoints_withPlotted (hx : x ≠ vf) (hy : y ≠ vf) (plotted : Grid × Bool) :
    (s.withPlotted plotted).spritePoints x y n = s.spritePoints x y n := by
  have hxreg : (s.withPlotted plotted).reg x = s.reg x := State.reg_setReg_other _ hx _
  have hyreg : (s.withPlotted plotted).reg y = s.reg y := State.reg_setReg_other _ hy _
  rw [State.spritePoints, hxreg, hyreg]
  rfl

/-- Whatever the points are, a second plot of them brings each cell back to where it was. -/
theorem Grid.plot_plot_fst (g : Grid) (ps : List (Nat × Nat)) : ((g.plot ps).1.plot ps).1 = g := by
  refine Grid.ext_cell fun X Y _ _ => ?_
  rw [Grid.cell_plot, Grid.cell_plot, Bool.bne_assoc, bne_self_eq_false, Bool.bne_false]

/-- R180: the second plot of a sprite collides exactly if the first set a cell. -/
theorem Grid.plot_plot_collided_iff (g : Grid) :
    ((g.plot (s.spritePoints x y n)).1.plot (s.spritePoints x y n)).2 = true ↔
      ∃ X Y, s.SpriteCovers x y n X Y ∧ g.cell X Y = false := by
  rw [Grid.plot_collided_iff]
  refine exists_congr fun X => exists_congr fun Y => and_congr_right fun hcov => ?_
  rw [Grid.cell_plot_covered g hcov, Bool.not_eq_true']

end

/-- Settles O38: the second plot of the same points undoes the first, and collides where the first set a cell. -/
theorem drawTwiceRestoresGrid : Obligations.DrawTwiceRestoresGrid := by
  intro x y n s hx hy
  let points := s.spritePoints x y n
  let t := s.withPlotted (s.grid.plot points)
  have hsecond : exec (.drw x y n) t = .next (t.withPlotted (t.grid.plot points)) := by
    rw [exec_drw, State.spritePoints_withPlotted hx hy]
  refine ⟨t, _, exec_drw, hsecond, s.grid.plot_plot_fst points, fun hset => ?someCellSet, fun hnone => ?noCellSet⟩
  case someCellSet =>
    have hcollided : (t.grid.plot points).2 = true := s.grid.plot_plot_collided_iff.mpr hset
    rw [State.reg_vf_withPlotted, hcollided]
    rfl
  case noCellSet =>
    have hcollided : (t.grid.plot points).2 = false :=
      Bool.eq_false_iff.mpr fun h => hnone (s.grid.plot_plot_collided_iff.mp h)
    rw [State.reg_vf_withPlotted, hcollided]
    rfl

end Sys2Proof.Machine
end
